-- ==== Sys2Proof/Word.lean ====
section
/-! DEFINITION. The word types of the LS-8 core and their plainest conversions (spec/00_scope.md R4). -/

namespace Sys2Proof

/-- Every register value, memory cell, opcode and operand is an unsigned byte (R4, R11). -/
abbrev Byte := BitVec 8

/-- The program counter: 9 bits, values 0..256 reachable (R4 `PCLEN`, R15). -/
abbrev PcWord := BitVec 9

/-- The index of one of the eight general registers R0..R7 (R11). -/
abbrev RegIdx := Fin 8

/-- The operand byte that names a register: its index, as a whole byte (R54). -/
def regByte (r : RegIdx) : Byte := BitVec.ofNat 8 r.val

end Sys2Proof
end

