-- ==== Sys2Proof/Syntax.lean ====
section
/-! DEFINITION. The abstract syntax: the 19 instructions of the opcode map (spec/30_encoding.md R56). -/

namespace Sys2Proof

/-- One constructor per row of spec/opcode_table.json, in the order of R56. A register operand is kept as the whole
operand byte (R54: it is not masked; R58: a byte above 7 still makes a recognized instruction, one that faults). -/
inductive Instr where
  /-- HLT (R90). -/
  | hlt
  /-- LDI reg, imm (R91). -/
  | ldi (ra imm : Byte)
  /-- PRN reg (R92). -/
  | prn (ra : Byte)
  /-- ADD regA, regB (R102). -/
  | add (ra rb : Byte)
  /-- MUL regA, regB (R103). -/
  | mul (ra rb : Byte)
  /-- MOD regA, regB (R104). -/
  | mod (ra rb : Byte)
  /-- OR regA, regB (R105). -/
  | or (ra rb : Byte)
  /-- XOR regA, regB (R106). -/
  | xor (ra rb : Byte)
  /-- NOT reg (R107). -/
  | not (ra : Byte)
  /-- SHL regA, regB (R108). -/
  | shl (ra rb : Byte)
  /-- SHR regA, regB (R109). -/
  | shr (ra rb : Byte)
  /-- PUSH reg (R122). -/
  | push (ra : Byte)
  /-- POP reg (R123). -/
  | pop (ra : Byte)
  /-- CALL reg (R124). -/
  | call (ra : Byte)
  /-- RET (R125). -/
  | ret
  /-- CMP regA, regB (R110). -/
  | cmp (ra rb : Byte)
  /-- JMP reg (R140). -/
  | jmp (ra : Byte)
  /-- JEQ reg (R141). -/
  | jeq (ra : Byte)
  /-- JNE reg (R142). -/
  | jne (ra : Byte)
  deriving DecidableEq, Repr

end Sys2Proof
end

