-- ==== Sys2Proof/Decode.lean ====
section
/-! DEFINITION. The decoder, total on any bytes, and after it the encoder (spec/30_encoding.md R50 to R58). -/

namespace Sys2Proof

/-- `op[7:6]`, the number made of bits 7 and 6 of the opcode byte: how many operand bytes follow it (R51). -/
def operandCount (op : Byte) : Nat := op.toNat / 64

/-- A row of the opcode map: the opcode byte and the instruction it makes of operand bytes 1 and 2.
A format with fewer operand bytes ignores what it is given for the others (R53). -/
structure OpcodeRow where
  opcode : Byte
  build : Byte → Byte → Instr

/-- The complete opcode map, in the order of R56. A byte that is in no row is unrecognized (R57). -/
def opcodeTable : List OpcodeRow :=
  [⟨0b00000001, fun _ _ => .hlt⟩,
   ⟨0b10000010, fun b1 b2 => .ldi b1 b2⟩,
   ⟨0b01000111, fun b1 _ => .prn b1⟩,
   ⟨0b10100000, fun b1 b2 => .add b1 b2⟩,
   ⟨0b10100010, fun b1 b2 => .mul b1 b2⟩,
   ⟨0b10100100, fun b1 b2 => .mod b1 b2⟩,
   ⟨0b10101010, fun b1 b2 => .or b1 b2⟩,
   ⟨0b10101011, fun b1 b2 => .xor b1 b2⟩,
   ⟨0b01101001, fun b1 _ => .not b1⟩,
   ⟨0b10101100, fun b1 b2 => .shl b1 b2⟩] ++
  [⟨0b10101101, fun b1 b2 => .shr b1 b2⟩,
   ⟨0b01000101, fun b1 _ => .push b1⟩,
   ⟨0b01000110, fun b1 _ => .pop b1⟩,
   ⟨0b01010000, fun b1 _ => .call b1⟩,
   ⟨0b00010001, fun _ _ => .ret⟩,
   ⟨0b10100111, fun b1 b2 => .cmp b1 b2⟩,
   ⟨0b01010100, fun b1 _ => .jmp b1⟩,
   ⟨0b01010101, fun b1 _ => .jeq b1⟩,
   ⟨0b01010110, fun b1 _ => .jne b1⟩]

/-- The opcode's row: an exact match of all eight bits (R52). -/
def lookupOpcode (op : Byte) : Option OpcodeRow :=
  opcodeTable.find? fun row => row.opcode == op

/-- Why bytes do not decode: the opcode byte is in no row of the map (R57), or the bytes given end before the opcode,
before operand byte 1 or before operand byte 2. -/
inductive DecodeError where
  | noOpcode
  | unrecognizedOpcode (op : Byte)
  | noOperand1
  | noOperand2
  deriving DecidableEq, Repr

/-- Decode the instruction at the head of `bytes`; answer it with the bytes after it. Operand bytes follow the opcode
in ascending address order (R50), exactly as many as bits 7:6 of the opcode say (R51, R75); none is looked at
for an unrecognized opcode (R57). No row has an operand count of 3 (R51), so the last arm stands for no row. -/
def decode : List Byte → Except DecodeError (Instr × List Byte)
  | [] => .error .noOpcode
  | op :: rest =>
    match lookupOpcode op with
    | none => .error (.unrecognizedOpcode op)
    | some row =>
      match operandCount op, rest with
      | 0, rest => .ok (row.build 0 0, rest)
      | 1, b1 :: rest => .ok (row.build b1 0, rest)
      | 1, [] => .error .noOperand1
      | 2, b1 :: b2 :: rest => .ok (row.build b1 b2, rest)
      | 2, [_] => .error .noOperand2
      | 2, [] => .error .noOperand1
      | _, _ => .error (.unrecognizedOpcode op)

/-- The opcode byte of an instruction (R56). -/
def Instr.opcodeByte : Instr → Byte
  | .hlt => 0x01
  | .ldi _ _ => 0x82
  | .prn _ => 0x47
  | .add _ _ => 0xA0
  | .mul _ _ => 0xA2
  | .mod _ _ => 0xA4
  | .or _ _ => 0xAA
  | .xor _ _ => 0xAB
  | .not _ => 0x69
  | .shl _ _ => 0xAC
  | .shr _ _ => 0xAD
  | .push _ => 0x45
  | .pop _ => 0x46
  | .call _ => 0x50
  | .ret => 0x11
  | .cmp _ _ => 0xA7
  | .jmp _ => 0x54
  | .jeq _ => 0x55
  | .jne _ => 0x56

/-- The operand bytes of an instruction, in memory order: byte 1, then byte 2 (R53). -/
def Instr.operandBytes : Instr → List Byte
  | .hlt => []
  | .ldi ra imm => [ra, imm]
  | .prn ra => [ra]
  | .add ra rb => [ra, rb]
  | .mul ra rb => [ra, rb]
  | .mod ra rb => [ra, rb]
  | .or ra rb => [ra, rb]
  | .xor ra rb => [ra, rb]
  | .not ra => [ra]
  | .shl ra rb => [ra, rb]
  | .shr ra rb => [ra, rb]
  | .push ra => [ra]
  | .pop ra => [ra]
  | .call ra => [ra]
  | .ret => []
  | .cmp ra rb => [ra, rb]
  | .jmp ra => [ra]
  | .jeq ra => [ra]
  | .jne ra => [ra]

/-- The bytes of an instruction, lowest address first (R50, R53). -/
def encode (i : Instr) : List Byte := i.opcodeByte :: i.operandBytes

/-- The bytes of an instruction word numbered as spec/opcode_table.json numbers it: byte `k` holds bits `8k+7 .. 8k`,
the first byte is the one at the lowest address, and every bit above `nbits` is 0. Three bytes, the longest
instruction (R50). -/
def tableWordBytes (nbits w : Nat) : List Byte :=
  let v := w % 2 ^ nbits
  [BitVec.ofNat 8 v, BitVec.ofNat 8 (v / 256), BitVec.ofNat 8 (v / 65536)]

/-- The instruction the decoder reads from a word of the opcode table; `none` where it refuses. -/
def decodeTableWord (nbits w : Nat) : Option Instr :=
  match decode (tableWordBytes nbits w) with
  | .ok (i, _) => some i
  | .error _ => none

end Sys2Proof
end

