-- ==== Sys2Proof/Config.lean ====
section
/-! DEFINITION. The parameters of the machine (spec/00_scope.md R4), with the two values the spec leaves open
(`FL_RESET` and `FAULT_STATUS`, spec/92_eei_decisions.md "Open parameters, collected") as constants without a body. -/

namespace Sys2Proof.Config

/-- `MEMSIZE`: the 256 bytes at addresses 0..255 are the whole map (R4, R30). -/
def memSize : Nat := 256

/-- The memory-cell value at reset, so what an address that nothing has written reads as (R26: "zero-initialized"). -/
def memReset : Byte := 0

/-- `SP_REG`: R7 is the stack pointer (R4, R12). -/
def spReg : RegIdx := 7

/-- `SP_RESET` (R4, R26). -/
def spReset : Byte := 0xF4

/-- `PC_RESET`: execution starts at the fixed address 0 (R4, R26). -/
def pcReset : PcWord := 0

/-- `LOAD_BASE`: the image is copied to address 0 and up (R4, R181). -/
def loadBase : Nat := 0

/-- `HALT_STATUS`, the exit status the host derives from HALTED (R4, R160). -/
def haltStatus : Int := 0

/-- `FL_RESET`: the Flags byte before the first CMP, "one fixed but unknown byte" (R19, R26).
DESIGN CHOICE, log entry 1: a constant without a body, so no proof can use a value of it. -/
opaque flReset : Byte

/-- The three fault kinds, symbolic: the spec gives them no numbers (R150). -/
inductive FaultKind where
  | unrecognizedOpcode
  | divisionByZero
  | addressOutOfRange
  deriving DecidableEq, Repr

/-- What `faultStatus` draws its number from: any integer for each kind. DESIGN CHOICE, log entry 2. -/
opaque faultStatusDraw : FaultKind → Int

/-- `FAULT_STATUS(kind)`: some non-zero integer, otherwise unknown (R4, R160).
The map from the draw is one to one onto the non-zero integers, so nothing but "not 0" is fixed (log entry 2). -/
def faultStatus (k : FaultKind) : Int :=
  if 0 ≤ faultStatusDraw k then faultStatusDraw k + 1 else faultStatusDraw k

end Sys2Proof.Config
end

