-- ==== Sys2Proof/Machine/State.lean ====
section
/-! DEFINITION. The state of the machine as plain data, the reasons a step stops, and the state after reset
(spec/10_state.md R10, R21 to R26; spec/60_exceptions.md R150 to R153). -/

namespace Sys2Proof.Machine

/-- Memory: (address, byte) pairs in one canonical form (`Memory.wf` of Machine/Ops.lean): addresses strictly rising and
below 256, no entry equal to the reset contents 0x00 that an unlisted address reads as (R26, R30). -/
abbrev Memory := List Host.Cell

/-- The run state `RS` (R21). HALTED and FAULTED are terminal (R70). -/
inductive RunState where
  | running
  | halted
  | faulted
  deriving DecidableEq, Repr

/-- The causes a to h of AddressOutOfRange, in the order of the table of R153. -/
inductive RangeCause where
  /-- a: opcode fetch with PC = 256. -/
  | opcodeFetch
  /-- b: operand fetch at PC+1 = 256. -/
  | operand1Fetch
  /-- c: operand fetch at PC+2 = 256. -/
  | operand2Fetch
  /-- d: register index above 7 in `ra`. -/
  | regIndexA
  /-- e: register index above 7 in `rb`. -/
  | regIndexB
  /-- f: SP would become -1 (PUSH, CALL). -/
  | spBelowZero
  /-- g: SP would become 256 (POP, RET). -/
  | spAbove255
  /-- h: return address 256 (CALL at PC = 254). -/
  | returnAddress
  deriving DecidableEq, Repr

/-- The fault record: the kind with its info (R22, R151 to R153). AddressOutOfRange also keeps the PC of the faulting
instruction and the cause letter (R153). -/
inductive FaultRecord where
  | unrecognizedOpcode (byte : Byte) (address : PcWord)
  | divisionByZero (address : PcWord)
  | addressOutOfRange (value : Int) (pc : PcWord) (cause : RangeCause)
  deriving DecidableEq, Repr

/-- The kind of a record (R150). -/
def FaultRecord.kind : FaultRecord → Config.FaultKind
  | .unrecognizedOpcode _ _ => .unrecognizedOpcode
  | .divisionByZero _ => .divisionByZero
  | .addressOutOfRange _ _ _ => .addressOutOfRange

/-- The PC a record says the faulting instruction was at (R151 to R153). -/
def FaultRecord.at : FaultRecord → PcWord
  | .unrecognizedOpcode _ a => a
  | .divisionByZero a => a
  | .addressOutOfRange _ a _ => a

/-- What a handler declares of the PC: it defers to the default advance, or it has set the PC itself (R77). Lives only
inside one step; it is not state (R85). -/
inductive PcResult where
  | advance
  | pcSet
  deriving DecidableEq, Repr

/-- The seven items of state (R10). -/
structure State where
  /-- `x[0]`..`x[7]`, R0..R7; R7 is the stack pointer (R11, R12). -/
  regs : Vector Byte 8
  /-- `PC`: between steps the address of the opcode byte of the next instruction (R14, R15). -/
  pc : PcWord
  /-- `FL`: bit 0 Equal, bit 1 Greater, bit 2 Less (R17). -/
  fl : Byte
  /-- `M[0]`..`M[255]` (R30). -/
  mem : Memory
  /-- `RS` (R21). -/
  rs : RunState
  /-- `FAULT`: empty, or the one record (R22). -/
  fault : Option FaultRecord
  /-- `OUT`: the bytes emitted so far, oldest first (R23). -/
  out : List Byte
  deriving DecidableEq, Repr

/-- Why `step` answers no state. The machine's own faults are no constructors here: raising one is a transition to
FAULTED, so a next state (R155). -/
inductive Fault where
  /-- Raised by `step` in a HALTED state: no step exists (R70). Safe: the spec has no step there. -/
  | haltedNoStep
  /-- Raised by `step` in a FAULTED state: no step exists (R70). Safe: the spec has no step there. -/
  | faultedNoStep
  deriving DecidableEq, Repr

/-- Why the model gives no meaning. -/
inductive Refusal where
  /-- Raised by the arm of `exec` for an instruction that has no meaning yet; no arm of this model does. Safe. -/
  | notModelled (mnemonic : String)
  /-- Raised by `launchWith` for an image of more than 256 bytes: the launch is refused and no step executes (R181).
  Safe: the spec gives no run there. -/
  | imageTooLong (length : Nat)
  deriving DecidableEq, Repr

/-- The state after reset, before an image is loaded, for a given `FL_RESET` (R26, R180). -/
def State.resetWith (flReset : Byte) : State where
  regs := (Vector.replicate 8 0).set Config.spReg Config.spReset
  pc := Config.pcReset
  fl := flReset
  mem := []
  rs := .running
  fault := none
  out := []

/-- The state right after reset: every field as R26 has it, `FL` at the unknown byte `FL_RESET` (log entry 1). -/
def State.reset : State := State.resetWith Config.flReset

end Sys2Proof.Machine
end

