-- ==== Sys2Proof/Machine/Ops.lean ====
section
/-! DEFINITION. The named operations over memory, registers, stack pointer and PC, raising a fault, and the engine's
part around a handler (spec/20_memory.md, spec/40_engine.md, spec/43_stack.md R121, spec/60_exceptions.md R155). -/

namespace Sys2Proof.Machine

/-! ### Memory -/

/-- `M[a]`: the listed byte, or the reset contents 0x00 where nothing is listed (R26, R38 b). -/
def Memory.read : Memory → Nat → Byte
  | [], _ => Config.memReset
  | (k, v) :: m, a => if a = k then v else Memory.read m a

/-- Put a cell in front, or nothing when it holds what an unlisted address reads as. -/
def Memory.consCell (a : Nat) (v : Byte) (m : Memory) : Memory :=
  if v = Config.memReset then m else (a, v) :: m

/-- `M[a] <- v`, keeping the canonical form. -/
def Memory.write : Memory → Nat → Byte → Memory
  | [], a, v => Memory.consCell a v []
  | (k, w) :: m, a, v =>
    if a < k then Memory.consCell a v ((k, w) :: m)
    else if a = k then Memory.consCell a v m
    else (k, w) :: Memory.write m a v

/-- Canonical from address `lo` up: strictly rising, below 256, no entry equal to the reset contents. -/
def Memory.wfFrom : Nat → Memory → Bool
  | _, [] => true
  | lo, (k, v) :: m =>
    decide (lo ≤ k) && decide (k < Config.memSize) && decide (v ≠ Config.memReset) && Memory.wfFrom (k + 1) m

/-- The canonical form of a memory: equal contents are equal data. -/
def Memory.wf (m : Memory) : Bool := Memory.wfFrom 0 m

/-! ### Registers and the other fields -/

/-- `x[r]` (R11). -/
def State.reg (s : State) (r : RegIdx) : Byte := s.regs[r]

/-- `x[r] <- v` (R11). No register is hardwired. -/
def State.setReg (s : State) (r : RegIdx) (v : Byte) : State := { s with regs := s.regs.set r v }

/-- `SP = x[7]` (R12). -/
def State.sp (s : State) : Byte := s.reg Config.spReg

/-- `PC <- a`. -/
def State.setPc (s : State) (a : PcWord) : State := { s with pc := a }

/-- `PC <- v` for a target that is a byte: always a legal PC, at most 255 (R15, R143). -/
def State.jumpTo (s : State) (v : Byte) : State := s.setPc (v.setWidth 9)

/-- `FL <- v` (R17). -/
def State.setFl (s : State) (v : Byte) : State := { s with fl := v }

/-- `M <- m`. -/
def State.setMem (s : State) (m : Memory) : State := { s with mem := m }

/-- `Out(v)`: append one byte to the output stream (R23). -/
def State.emit (s : State) (v : Byte) : State := { s with out := s.out ++ [v] }

/-- `RS <- r` (R21). -/
def State.setRs (s : State) (r : RunState) : State := { s with rs := r }

/-- A byte value from an exact integer: reduced modulo 256, the only reduction of the machine (R101). -/
def narrow (n : Nat) : Byte := BitVec.ofNat 8 n

/-! ### Memory access by the core -/

/-- `MemRead(addr, 1)`: bounds-checked (R31). The cause letter is the caller's (R153). -/
def memRead (addr : Int) (cause : RangeCause) (s : State) : Except FaultRecord Byte :=
  if 0 ≤ addr ∧ addr ≤ 255 then .ok (s.mem.read addr.toNat)
  else .error (.addressOutOfRange addr s.pc cause)

/-- `MemWrite(addr, 1, v)`: bounds-checked (R31). -/
def memWrite (addr : Int) (v : Byte) (cause : RangeCause) (s : State) : Except FaultRecord State :=
  if 0 ≤ addr ∧ addr ≤ 255 then .ok (s.setMem (s.mem.write addr.toNat v))
  else .error (.addressOutOfRange addr s.pc cause)

/-! ### Faults -/

/-- Fault entry: `RS <- FAULTED`, `FAULT <- (kind, info)`, and nothing else changes (R155). No register or memory saves
anything and control goes nowhere. There is no operation beside it that returns from a fault: R157, "There is no
return from a fault". -/
def raise (f : FaultRecord) (s : State) : State := { s with rs := .faulted, fault := some f }

/-! ### The engine around a handler -/

/-- A handler: what one instruction does after its fetch. An error is the fault it raises; it then has no effect. -/
abbrev Handler := State → Except FaultRecord (State × PcResult)

/-- The PC control after a handler that raised nothing: the default advance `PC + 1 + n`, `n` the operand count in the
opcode's top two bits and PC the address of the opcode byte, unless the handler declared the PC set (R77, R78). -/
def retire (op : Byte) (s : State) : State × PcResult → State
  | (t, .advance) => t.setPc (s.pc + BitVec.ofNat 9 (1 + operandCount op))
  | (t, .pcSet) => t

/-- End a step: all of the handler's writes take effect, or, when it raised a fault, none of them (R71, R81). -/
def finish (i : Instr) (h : Handler) (s : State) : Host.Outcome State Fault Refusal :=
  match h s with
  | .error f => .next (raise f s)
  | .ok r => .next (retire i.opcodeByte s r)

/-! ### Stack-pointer updates of the four stack instructions -/

/-- The SP that PUSH and CALL store at: `x[7] - 1` as an integer, AddressOutOfRange(-1) when it leaves 0..255 (R121). -/
def predecSp (s : State) : Except FaultRecord Byte :=
  let n : Int := (s.sp.toNat : Int) - 1
  if n < 0 then .error (.addressOutOfRange n s.pc .spBelowZero) else .ok (narrow n.toNat)

/-- The SP that POP and RET leave: `t + 1` as an integer, AddressOutOfRange(256) when it leaves 0..255 (R121). `t` is
`x[7]`, but for POP R7 the byte popped into it (R123). -/
def postincSp (t : Byte) (s : State) : Except FaultRecord Byte :=
  let n : Int := (t.toNat : Int) + 1
  if n > 255 then .error (.addressOutOfRange n s.pc .spAbove255) else .ok (narrow n.toNat)

end Sys2Proof.Machine
end

