-- ==== Sys2Proof/Machine/Flags.lean ====
section
/-! DEFINITION. The Flags byte: what CMP writes and the one bit that JEQ and JNE read
(spec/10_state.md R17, R18; spec/42_alu.md R110). -/

namespace Sys2Proof.Machine

/-- `FL` after a CMP of `a` and `b`, compared as unsigned bytes: Equal 0x01, Greater 0x02 or Less 0x04, the whole byte
replaced (R17, R110). -/
def compareFlags (a b : Byte) : Byte :=
  if a.toNat = b.toNat then 0b00000001
  else if a.toNat > b.toNat then 0b00000010
  else 0b00000100

/-- `FL.E = FL[0]` (R17). -/
def State.flagE (s : State) : Bool := s.fl.getLsbD 0

/-- `FL.G = FL[1]` (R17). No instruction reads it (R18). -/
def State.flagG (s : State) : Bool := s.fl.getLsbD 1

/-- `FL.L = FL[2]` (R17). No instruction reads it (R18). -/
def State.flagL (s : State) : Bool := s.fl.getLsbD 2

end Sys2Proof.Machine
end

