-- ==== Sys2Proof/Machine/Operands.lean ====
section
/-! DEFINITION. The operand forms: register operands, checked before any effect, and the immediate of LDI
(spec/30_encoding.md R53 to R55, spec/40_engine.md R76). -/

namespace Sys2Proof.Machine

/-- The register an operand byte names: the whole byte is the index, not masked; above 7 it raises
AddressOutOfRange(index) (R13, R54). -/
def checkReg (b : Byte) (cause : RangeCause) (s : State) : Except FaultRecord RegIdx :=
  if h : b.toNat < 8 then .ok ⟨b.toNat, h⟩ else .error (.addressOutOfRange b.toNat s.pc cause)

/-- Format F1R: check `ra`, then run the handler (R53, R76). The check is made whatever the handler goes on to read. -/
def withReg (ra : Byte) (h : RegIdx → Handler) : Handler := fun s => do
  let a ← checkReg ra .regIndexA s
  h a s

/-- Format F2RR: check `ra`, then `rb`, then run the handler (R53, R76). -/
def withRegs (ra rb : Byte) (h : RegIdx → RegIdx → Handler) : Handler := fun s => do
  let a ← checkReg ra .regIndexA s
  let b ← checkReg rb .regIndexB s
  h a b s

/-- Format F2RI: check `ra`; the immediate is the whole second operand byte, used as it is (R53, R55). -/
def withRegImm (ra imm : Byte) (h : RegIdx → Byte → Handler) : Handler := fun s => do
  let a ← checkReg ra .regIndexA s
  h a imm s

end Sys2Proof.Machine
end

