-- ==== Sys2Proof/Machine/Alu.lean ====
section
/-! DEFINITION. The ALU: ADD, MUL, MOD, OR, XOR, NOT, SHL, SHR, CMP (spec/42_alu.md R100 to R111). Each result is the exact
value on the unsigned operands, narrowed at the end (R101). The operation tag of R83 is the instruction itself, so
an unsupported tag cannot be written. -/

namespace Sys2Proof.Machine

/-- `(a + b) mod 256` (R102). -/
def aluAdd (a b : Byte) : Byte := narrow (a.toNat + b.toNat)

/-- `(a * b) mod 256` (R103). -/
def aluMul (a b : Byte) : Byte := narrow (a.toNat * b.toNat)

/-- `a mod b`, the remainder of the unsigned division, for `b` not 0 (R104). -/
def aluMod (a b : Byte) : Byte := narrow (a.toNat % b.toNat)

/-- Bitwise or (R105). -/
def aluOr (a b : Byte) : Byte := a ||| b

/-- Bitwise exclusive or (R106). -/
def aluXor (a b : Byte) : Byte := a ^^^ b

/-- `255 - a`: every one of the 8 bits inverted (R107). -/
def aluNot (a : Byte) : Byte := narrow (255 - a.toNat)

/-- `(a * 2^s) mod 256`, the amount `s` the whole byte, not masked (R108). -/
def aluShl (a s : Byte) : Byte := narrow (a.toNat * 2 ^ s.toNat)

/-- `a div 2^s`, a logical shift, the amount `s` the whole byte, not masked (R109). -/
def aluShr (a s : Byte) : Byte := narrow (a.toNat / 2 ^ s.toNat)

/-- The common shape of a two-operand operation: both sources are read before the result goes to `x[ra]` (R100). -/
def binaryOp (f : Byte → Byte → Byte) (a b : RegIdx) : Handler := fun s =>
  .ok (s.setReg a (f (s.reg a) (s.reg b)), .advance)

/-- ADD regA, regB (R102). -/
def execAdd (ra rb : Byte) (s : State) : Host.Outcome State Fault Refusal :=
  finish (.add ra rb) (withRegs ra rb (binaryOp aluAdd)) s

/-- MUL regA, regB (R103). -/
def execMul (ra rb : Byte) (s : State) : Host.Outcome State Fault Refusal :=
  finish (.mul ra rb) (withRegs ra rb (binaryOp aluMul)) s

/-- MOD's handler: DivisionByZero(PC) when the divisor register is 0, before any write (R104, R152). -/
def modHandler (a b : RegIdx) : Handler := fun s =>
  if s.reg b = 0 then .error (.divisionByZero s.pc) else binaryOp aluMod a b s

/-- MOD regA, regB (R104). -/
def execMod (ra rb : Byte) (s : State) : Host.Outcome State Fault Refusal :=
  finish (.mod ra rb) (withRegs ra rb modHandler) s

/-- OR regA, regB (R105). -/
def execOr (ra rb : Byte) (s : State) : Host.Outcome State Fault Refusal :=
  finish (.or ra rb) (withRegs ra rb (binaryOp aluOr)) s

/-- XOR regA, regB (R106). -/
def execXor (ra rb : Byte) (s : State) : Host.Outcome State Fault Refusal :=
  finish (.xor ra rb) (withRegs ra rb (binaryOp aluXor)) s

/-- NOT reg (R107). -/
def execNot (ra : Byte) (s : State) : Host.Outcome State Fault Refusal :=
  finish (.not ra) (withReg ra fun a s => .ok (s.setReg a (aluNot (s.reg a)), .advance)) s

/-- SHL regA, regB (R108). -/
def execShl (ra rb : Byte) (s : State) : Host.Outcome State Fault Refusal :=
  finish (.shl ra rb) (withRegs ra rb (binaryOp aluShl)) s

/-- SHR regA, regB (R109). -/
def execShr (ra rb : Byte) (s : State) : Host.Outcome State Fault Refusal :=
  finish (.shr ra rb) (withRegs ra rb (binaryOp aluShr)) s

/-- CMP regA, regB: writes nothing but `FL` (R110, R111). -/
def execCmp (ra rb : Byte) (s : State) : Host.Outcome State Fault Refusal :=
  finish (.cmp ra rb)
    (withRegs ra rb fun a b s => .ok (s.setFl (compareFlags (s.reg a) (s.reg b)), .advance)) s

end Sys2Proof.Machine
end

