-- ==== Sys2Proof/Machine/Basic.lean ====
section
/-! DEFINITION. HLT, LDI and PRN (spec/41_hlt_ldi_prn.md R90 to R92). -/

namespace Sys2Proof.Machine

/-- HLT: `RS <- HALTED`; the PC keeps the address of the HLT byte (R90). The engine stops here without a handler result
(R73, R79). -/
def execHlt (s : State) : Host.Outcome State Fault Refusal :=
  .next (s.setRs .halted)

/-- LDI reg, imm: `x[ra] <- imm` (R91). -/
def execLdi (ra imm : Byte) (s : State) : Host.Outcome State Fault Refusal :=
  finish (.ldi ra imm) (withRegImm ra imm fun a v s => .ok (s.setReg a v, .advance)) s

/-- PRN reg: `Out(x[ra])` (R92). -/
def execPrn (ra : Byte) (s : State) : Host.Outcome State Fault Refusal :=
  finish (.prn ra) (withReg ra fun a s => .ok (s.emit (s.reg a), .advance)) s

end Sys2Proof.Machine
end

