-- ==== Sys2Proof/Machine/Jump.lean ====
section
/-! DEFINITION. The jumps JMP, JEQ and JNE (spec/44_jumps.md R140 to R143). -/

namespace Sys2Proof.Machine

/-- A jump under a condition: taken, the PC is `x[ra]` and declared set, even when that is the jump's own address;
not taken, the default advance (R77, R79, R140 to R142). -/
def jumpIf (taken : Bool) (a : RegIdx) : Handler := fun s =>
  .ok (if taken then (s.jumpTo (s.reg a), .pcSet) else (s, .advance))

/-- JMP reg: always taken (R140). -/
def execJmp (ra : Byte) (s : State) : Host.Outcome State Fault Refusal :=
  finish (.jmp ra) (withReg ra (jumpIf true)) s

/-- JEQ reg: taken when `FL[0] = 1` (R141). -/
def execJeq (ra : Byte) (s : State) : Host.Outcome State Fault Refusal :=
  finish (.jeq ra) (withReg ra (jumpIf s.flagE)) s

/-- JNE reg: taken when `FL[0] = 0` (R142). -/
def execJne (ra : Byte) (s : State) : Host.Outcome State Fault Refusal :=
  finish (.jne ra) (withReg ra (jumpIf (!s.flagE))) s

end Sys2Proof.Machine
end

