-- ==== Sys2Proof/Machine/Stack.lean ====
section
/-! DEFINITION. The stack instructions PUSH, POP, CALL and RET (spec/43_stack.md R120 to R127). -/

namespace Sys2Proof.Machine

/-- PUSH's handler: decrement R7, then store; the operand is read after `x[7]` was updated (R122). -/
def pushHandler (a : RegIdx) : Handler := fun s => do
  let sp ← predecSp s
  let s1 := s.setReg Config.spReg sp
  let s2 ← memWrite sp.toNat (s1.reg a) .spBelowZero s1
  pure (s2, .advance)

/-- PUSH reg (R122). -/
def execPush (ra : Byte) (s : State) : Host.Outcome State Fault Refusal :=
  finish (.push ra) (withReg ra pushHandler) s

/-- POP's handler: load, then increment R7. For POP R7 the increment is of the byte just loaded into it (R123). -/
def popHandler (a : RegIdx) : Handler := fun s => do
  let v ← memRead s.sp.toNat .spAbove255 s
  let sp ← postincSp (if a = Config.spReg then v else s.sp) s
  pure ((s.setReg a v).setReg Config.spReg sp, .advance)

/-- POP reg (R123). -/
def execPop (ra : Byte) (s : State) : Host.Outcome State Fault Refusal :=
  finish (.pop ra) (withReg ra popHandler) s

/-- CALL's handler: decrement R7, store the return address `PC + 2`, jump to the byte in `x[ra]`, read after `x[7]` was
updated. SP underflow is tested before the return address (R124, R156). -/
def callHandler (a : RegIdx) : Handler := fun s => do
  let sp ← predecSp s
  if s.pc.toNat + 2 > 255 then .error (.addressOutOfRange 256 s.pc .returnAddress)
  else
    let s1 := s.setReg Config.spReg sp
    let s2 ← memWrite sp.toNat (narrow (s.pc.toNat + 2)) .spBelowZero s1
    pure (s2.jumpTo (s1.reg a), .pcSet)

/-- CALL reg (R124). -/
def execCall (ra : Byte) (s : State) : Host.Outcome State Fault Refusal :=
  finish (.call ra) (withReg ra callHandler) s

/-- RET's handler: load from R7, increment R7, jump to the loaded byte (R125). -/
def retHandler : Handler := fun s => do
  let t ← memRead s.sp.toNat .spAbove255 s
  let sp ← postincSp s.sp s
  pure ((s.setReg Config.spReg sp).jumpTo t, .pcSet)

/-- RET (R125). -/
def execRet (s : State) : Host.Outcome State Fault Refusal :=
  finish .ret retHandler s

end Sys2Proof.Machine
end

