-- ==== Sys2Proof/Machine/Fetch.lean ====
section
/-! DEFINITION. The fetch stages of a step (spec/40_engine.md R71 to R75). -/

namespace Sys2Proof.Machine

/-- An operand byte, read only when the opcode's count says it exists (R75); a format without it ignores the 0. -/
def fetchOperand (present : Bool) (addr : Int) (cause : RangeCause) (s : State) : Except FaultRecord Byte :=
  if present then memRead addr cause s else .ok 0

/-- Read the opcode byte at PC, look it up, then read exactly as many operand bytes as its bits 7:6 say, at PC+1 and
PC+2 (R71, R72, R74, R75). An unrecognized opcode reads no operand byte (R57). The addresses are integers: PC + 1
and PC + 2 never wrap (R15). -/
def fetchInstr (s : State) : Except FaultRecord Instr := do
  let op ← memRead s.pc.toNat .opcodeFetch s
  match lookupOpcode op with
  | none => .error (.unrecognizedOpcode op s.pc)
  | some row =>
    let b1 ← fetchOperand (decide (1 ≤ operandCount op)) (s.pc.toNat + 1) .operand1Fetch s
    let b2 ← fetchOperand (decide (operandCount op = 2)) (s.pc.toNat + 2) .operand2Fetch s
    pure (row.build b1 b2)

end Sys2Proof.Machine
end

