-- ==== Sys2Proof/Machine/Load.lean ====
section
/-! DEFINITION. What the host does to the machine and reads from it: the load of a program image before the first step
(spec/70_reset_and_hazards.md R180 to R182) and the exit status after the last (spec/60_exceptions.md R160). -/

namespace Sys2Proof.Machine

/-- Store bytes at ascending addresses from `a` up. -/
def storeBytes (a : Nat) : List Byte → Memory → Memory
  | [], m => m
  | b :: bs, m => storeBytes (a + 1) bs (m.write a b)

/-- The launch state: reset, then the image copied to address 0 and up, nothing else changed. An image of more than 256
bytes is a refused launch (R181). A function of the image and `FL_RESET` only (R182). -/
def launchWith (flReset : Byte) (image : List Byte) : Host.Outcome State Fault Refusal :=
  if image.length > Config.memSize then .refused (.imageTooLong image.length)
  else .next ((State.resetWith flReset).setMem (storeBytes Config.loadBase image []))

/-- The launch with the machine's own `FL_RESET` (R182). -/
def launch (image : List Byte) : Host.Outcome State Fault Refusal := launchWith Config.flReset image

/-- The exit status the host derives when the run has ended: HALTED gives 0, FAULTED gives `FAULT_STATUS(kind)`, some
non-zero number; a running machine has none (R160). -/
def exitStatus (s : State) : Option Int :=
  match s.rs with
  | .running => none
  | .halted => some Config.haltStatus
  | .faulted => s.fault.map fun f => Config.faultStatus f.kind

end Sys2Proof.Machine
end

