-- ==== Sys2Proof/Machine/Step.lean ====
section
/-! DEFINITION. One step of the machine (spec/40_engine.md R70, R71). -/

namespace Sys2Proof.Machine

/-- One step: it exists only when `RS = RUNNING` (R70); it executes one instruction or raises one fault (R71). HLT goes
through the dispatcher like the others: R73, "The result is the same". -/
def step (s : State) : Host.Outcome State Fault Refusal :=
  match s.rs with
  | .halted => .fault .haltedNoStep
  | .faulted => .fault .faultedNoStep
  | .running =>
    match fetchInstr s with
    | .error f => .next (raise f s)
    | .ok i => exec i s

/-- `s` with an instruction word of spec/opcode_table.json stored at PC, as many of its bytes as lie below address 256,
and the machine RUNNING, which the fetch needs (R70). The state after reset is RUNNING already. The core has no
loader of its own: a program is in memory before the first step (R181, log entry 5). -/
def State.withFetchWord (s : State) (nbits w : Nat) : State :=
  { s with
    mem := storeBytes s.pc.toNat ((tableWordBytes nbits w).take (256 - s.pc.toNat)) s.mem
    rs := .running
    fault := none }

end Sys2Proof.Machine
end

