-- ==== Sys2Proof/WellFormed.lean ====
section
/-! DEFINITION. Well-formed instructions: every register operand names one of R0..R7 (spec/10_state.md R13,
spec/30_encoding.md R53, R54). An ill-formed instruction still decodes and still runs: it raises AddressOutOfRange
(R58, R76). -/

namespace Sys2Proof

/-- The bytes of an instruction that its format declares register indices, in the order they are checked:
`ra`, then `rb` (R53, R76). The immediate of LDI is not among them (R55). -/
def Instr.registerOperands : Instr → List Byte
  | .hlt => []
  | .ldi ra _ => [ra]
  | .prn ra => [ra]
  | .add ra rb => [ra, rb]
  | .mul ra rb => [ra, rb]
  | .mod ra rb => [ra, rb]
  | .or ra rb => [ra, rb]
  | .xor ra rb => [ra, rb]
  | .not ra => [ra]
  | .shl ra rb => [ra, rb]
  | .shr ra rb => [ra, rb]
  | .push ra => [ra]
  | .pop ra => [ra]
  | .call ra => [ra]
  | .ret => []
  | .cmp ra rb => [ra, rb]
  | .jmp ra => [ra]
  | .jeq ra => [ra]
  | .jne ra => [ra]

/-- Every register operand is at most 7 (R13). -/
def Instr.wellFormed (i : Instr) : Bool :=
  i.registerOperands.all fun b => decide (b.toNat ≤ 7)

end Sys2Proof
end

