-- ==== Sys2Proof/Safety.lean ====
section
/-! DEFINITION. The terms claims use: what a good end is, the invariant of the machine, and tables of the spec written out
directly from its text, beside the machine and not through it, so that a claim compares the two. -/

namespace Sys2Proof.Machine

/-- A run's good end: HALTED. FAULTED is the bad end (R9). -/
def State.EndedWell (s : State) : Prop := s.rs = .halted

/-- The byte `k` places after the one at PC: 0 is the opcode byte, 1 and 2 the operand bytes (R50). -/
def State.codeByte (s : State) (k : Nat) : Byte := s.mem.read (s.pc.toNat + k)

/-- The bytes at PC, PC+1 and PC+2, as many of them as lie in 0..255 (R15: addresses do not wrap). -/
def State.codeBytes (s : State) : List Byte :=
  ((List.range 3).filter fun k => decide (s.pc.toNat + k ≤ 255)).map s.codeByte

/-- The register an operand byte names, 0 for a byte above 7 (which names none). -/
def State.regNamed (s : State) (b : Byte) : Byte := s.regs.toList.getD b.toNat 0

/-- The 19 opcode bytes in the order of R56. -/
def opcodeBytes : List Byte :=
  [0x01, 0x82, 0x47, 0xA0, 0xA2, 0xA4, 0xAA, 0xAB, 0x69, 0xAC, 0xAD, 0x45, 0x46, 0x50, 0x11, 0xA7, 0x54, 0x55, 0x56]

/-- The fault conditions of one step with the record each reports, in the order they are tested (R156; values R153).
The byte whose increment is SP's new value is `x[7]`, for POP R7 the popped byte (R123). -/
def faultTests (s : State) : List (Bool × FaultRecord) :=
  let pc := s.pc.toNat
  let op := s.codeByte 0
  let n := op.toNat / 64
  let b1 := s.codeByte 1
  let b2 := s.codeByte 2
  let bumped := if op = 0x46 ∧ b1 = 7 then s.mem.read (s.regNamed 7).toNat else s.regNamed 7
  [(decide (pc > 255), .addressOutOfRange pc s.pc .opcodeFetch),
   (decide (op ∉ opcodeBytes), .unrecognizedOpcode op s.pc),
   (decide (n ≥ 1 ∧ pc + 1 > 255), .addressOutOfRange 256 s.pc .operand1Fetch),
   (decide (n = 2 ∧ pc + 2 > 255), .addressOutOfRange 256 s.pc .operand2Fetch),
   (decide (n ≥ 1 ∧ b1.toNat > 7), .addressOutOfRange b1.toNat s.pc .regIndexA),
   (decide (n = 2 ∧ op ≠ 0x82 ∧ b2.toNat > 7), .addressOutOfRange b2.toNat s.pc .regIndexB),
   (decide (op = 0xA4 ∧ s.regNamed b2 = 0), .divisionByZero s.pc),
   (decide ((op = 0x45 ∨ op = 0x50) ∧ s.regNamed 7 = 0), .addressOutOfRange (-1) s.pc .spBelowZero),
   (decide (op = 0x50 ∧ pc = 254), .addressOutOfRange 256 s.pc .returnAddress),
   (decide ((op = 0x46 ∨ op = 0x11) ∧ bumped = 255), .addressOutOfRange 256 s.pc .spAbove255)]

/-- The fault a step from here reports, if any: the first condition that holds (R82, R156). -/
def firstFault (s : State) : Option FaultRecord :=
  ((faultTests s).find? fun test => test.1).map fun test => test.2

/-- The PC after an instruction that raises no fault, by the table of R16. -/
def pcAfter (i : Instr) (s : State) : PcWord :=
  match i with
  | .hlt => s.pc
  | .ldi _ _ | .add _ _ | .mul _ _ | .mod _ _ | .or _ _ | .xor _ _ | .shl _ _ | .shr _ _ | .cmp _ _ => s.pc + 3
  | .prn _ | .not _ | .push _ | .pop _ => s.pc + 2
  | .jmp ra => (s.regNamed ra).setWidth 9
  | .jeq ra => if s.fl.getLsbD 0 then (s.regNamed ra).setWidth 9 else s.pc + 2
  | .jne ra => if s.fl.getLsbD 0 then s.pc + 2 else (s.regNamed ra).setWidth 9
  | .call ra => (if ra = 7 then s.regNamed 7 - 1 else s.regNamed ra).setWidth 9
  | .ret => (s.mem.read (s.regNamed 7).toNat).setWidth 9

/-- The instructions that defer to the default advance, by the table of R79: JEQ and JNE when they do not jump. -/
def takesDefaultAdvance (i : Instr) (s : State) : Bool :=
  match i with
  | .hlt | .jmp _ | .call _ | .ret => false
  | .jeq _ => !s.fl.getLsbD 0
  | .jne _ => s.fl.getLsbD 0
  | .ldi _ _ | .prn _ | .add _ _ | .mul _ _ | .mod _ _ | .or _ _ | .xor _ _ | .not _ | .shl _ _ | .shr _ _
  | .cmp _ _ | .push _ | .pop _ => true

/-- The instruction at PC names register `r`: its first operand byte, or its second where the format declares that one a
register index (R53; LDI's second byte is an immediate). -/
def State.namesReg (s : State) (r : RegIdx) : Prop :=
  ((s.codeByte 0).toNat / 64 ≥ 1 ∧ s.codeByte 1 = regByte r) ∨
  ((s.codeByte 0).toNat / 64 = 2 ∧ s.codeByte 0 ≠ 0x82 ∧ s.codeByte 2 = regByte r)

/-- The instruction at PC is one of PUSH, POP, CALL, RET, which use R7 whatever their operand (R12). -/
def State.atStackInstr (s : State) : Prop :=
  s.codeByte 0 = 0x45 ∨ s.codeByte 0 = 0x46 ∨ s.codeByte 0 = 0x50 ∨ s.codeByte 0 = 0x11

/-- The addresses a step from here may read, by the table of R34: the opcode fetch, the operand fetches that a recognized
opcode byte's count gives (an unrecognized one reads no operand byte, R57), and the load of POP and RET. -/
def readAddresses (s : State) : List Nat :=
  let n := if s.codeByte 0 ∈ opcodeBytes then (s.codeByte 0).toNat / 64 else 0
  [s.pc.toNat] ++ (if n ≥ 1 then [s.pc.toNat + 1] else []) ++ (if n = 2 then [s.pc.toNat + 2] else []) ++
    (if s.codeByte 0 = 0x46 ∨ s.codeByte 0 = 0x11 then [(s.regNamed 7).toNat] else [])

/-- The step that took `s` to `t` stored a byte at `a`: it was a PUSH or CALL that raised no fault, and `a` is the
decremented SP (R34). -/
def storesAt (s t : State) (a : Nat) : Prop :=
  (s.codeByte 0 = 0x45 ∨ s.codeByte 0 = 0x50) ∧ t.rs ≠ .faulted ∧ a + 1 = s.sp.toNat

/-- The step from `t` takes `op` as its opcode byte, followed by the bytes that memory holds after PC: it runs what they
decode to, or raises the fault of what they do not (R71 to R75). -/
structure StepFetches (t : State) (op : Byte) : Prop where
  runs : ∀ i rest, decode (op :: t.codeBytes.tail) = .ok (i, rest) → i.opcodeByte = op ∧ step t = exec i t
  unrecognized : ∀ b, decode (op :: t.codeBytes.tail) = .error (.unrecognizedOpcode b) →
    step t = .next (raise (.unrecognizedOpcode op t.pc) t)
  noOperand1 : decode (op :: t.codeBytes.tail) = .error .noOperand1 →
    step t = .next (raise (.addressOutOfRange 256 t.pc .operand1Fetch) t)
  noOperand2 : decode (op :: t.codeBytes.tail) = .error .noOperand2 →
    step t = .next (raise (.addressOutOfRange 256 t.pc .operand2Fetch) t)

/-- The invariant of the machine: memory is in canonical form (R30), the PC is at most 256 (R15), there is a fault record
only in a FAULTED state (R22), and a FAULTED state still shows why it faulted: its record is the one the first
failing test of the faulting step reports (R155, R156). -/
structure State.Inv (s : State) : Prop where
  memCanonical : s.mem.wf = true
  pcInRange : s.pc.toNat ≤ 256
  noRecordUnlessFaulted : s.rs ≠ .faulted → s.fault = none
  recordExplained : s.rs = .faulted → s.fault ≠ none ∧ s.fault = firstFault s

/-- A frame's last clause: run state and fault record are as before, or the step raised a fault, and then nothing else
changed (R81, R155). -/
def SameRunOrRaised (s t : State) : Prop :=
  (t.rs = s.rs ∧ t.fault = s.fault) ∨ ∃ f, t = raise f s

/-- Every address reads as before. -/
def SameMemory (s t : State) : Prop := ∀ a, t.mem.read a = s.mem.read a

end Sys2Proof.Machine
end

