-- ==== Sys2Proof/Certificates/Slice0/Obligations.lean ====
section
/-! DEFINITION. The statements for the provers. The result statements quantify over registers (`RegIdx`), so over every
legal operand byte, R7 included; `Obligations.BadRegisterOperandRaises` says what every other operand byte does. -/

open Sys2Proof Sys2Proof.Machine

/-! ### Reset, load, end of run -/

/-- 10_state.md section 7 (R26), 70_reset_and_hazards.md (R180): what reset leaves, for every `FL_RESET`. That the reset
`FL` is one unknown byte is the spec's decision D8 and the model's log entry 1. -/
def Obligations.ResetLeavesTheTabledValues : Prop :=
  State.reset = State.resetWith Config.flReset ∧
  ∀ f : Byte, let s := State.resetWith f
    (∀ a, s.mem.read a = 0) ∧ (∀ r : RegIdx, s.reg r = if r = 7 then 0xF4 else 0) ∧
    s.pc = 0 ∧ s.fl = f ∧ s.rs = .running ∧ s.fault = none ∧ s.out = []

/-- 70_reset_and_hazards.md section 1 (R181): the load copies the image to address 0 and up and changes nothing else; an
image of more than 256 bytes is a refused launch (the spec's decision D15); the first step of an empty image raises
UnrecognizedOpcode(0x00, 0). -/
def Obligations.LaunchCopiesTheImage : Prop :=
  ∀ (f : Byte) (image : List Byte),
    (image.length ≤ 256 → ∃ m : Memory,
      launchWith f image = .next { State.resetWith f with mem := m } ∧
      ∀ a, m.read a = image.getD a 0) ∧
    (256 < image.length → launchWith f image = .refused (.imageTooLong image.length)) ∧
    (image = [] → ∃ s, launchWith f image = .next s ∧
      step s = .next (raise (.unrecognizedOpcode 0 0) s))

/-- 60_exceptions.md section 6 (R160): HALTED gives status 0, FAULTED some non-zero number, a running machine none.
The number is open: the spec's decision D11 and the model's log entry 2. -/
def Obligations.ExitStatusTellsTheEnd : Prop :=
  ∀ s : State,
    (s.rs = .running → exitStatus s = none) ∧
    (s.rs = .halted → exitStatus s = some 0) ∧
    (∀ f, s.rs = .faulted → s.fault = some f → ∃ n, exitStatus s = some n ∧ n ≠ 0)

/-! ### HLT, LDI, PRN -/

/-- R90: encoding, effect at any address 0..255, no further step, exit status 0. -/
def Obligations.HltHaltsInPlace : Prop :=
  encode .hlt = [0x01] ∧
  ∀ s : State,
    exec .hlt s = .next { s with rs := .halted } ∧
    (s.rs = .running → s.pc.toNat ≤ 255 → s.codeByte 0 = 0x01 → step s = .next { s with rs := .halted }) ∧
    (∀ t, exec .hlt s = .next t → (¬ ∃ u, step t = .next u) ∧ exitStatus t = some 0)

/-- R91: encoding, effect, and the property that a PRN of the register then emits the immediate, for every register and
every immediate. -/
def Obligations.LdiLoadsTheImmediate : Prop :=
  ∀ (a : RegIdx) (imm : Byte) (s : State),
    encode (.ldi (regByte a) imm) = [0x82, regByte a, imm] ∧
    exec (.ldi (regByte a) imm) s = .next { s with regs := s.regs.set a imm, pc := s.pc + 3 } ∧
    ∀ t, exec (.ldi (regByte a) imm) s = .next t →
      ∃ u, exec (.prn (regByte a)) t = .next u ∧ u.out = s.out ++ [imm]

/-- 41_hlt_ldi_prn.md (R92). That the core delivers the byte to an output stream is the spec's decision D14. -/
def Obligations.PrnEmitsTheRegister : Prop :=
  ∀ (a : RegIdx) (s : State),
    encode (.prn (regByte a)) = [0x47, regByte a] ∧
    exec (.prn (regByte a)) s = .next { s with out := s.out ++ [s.reg a], pc := s.pc + 2 }

/-! ### The ALU -/

/-- R102. -/
def Obligations.AddWritesTheSumModulo256 : Prop :=
  ∀ (a b : RegIdx) (s : State),
    encode (.add (regByte a) (regByte b)) = [0xA0, regByte a, regByte b] ∧
    ∃ v : Byte, v.toNat = ((s.reg a).toNat + (s.reg b).toNat) % 256 ∧
      exec (.add (regByte a) (regByte b)) s = .next { s with regs := s.regs.set a v, pc := s.pc + 3 }

/-- R103. -/
def Obligations.MulKeepsTheLowByte : Prop :=
  ∀ (a b : RegIdx) (s : State),
    encode (.mul (regByte a) (regByte b)) = [0xA2, regByte a, regByte b] ∧
    ∃ v : Byte, v.toNat = ((s.reg a).toNat * (s.reg b).toNat) % 256 ∧
      exec (.mul (regByte a) (regByte b)) s = .next { s with regs := s.regs.set a v, pc := s.pc + 3 }

/-- 42_alu.md section 2 (R104). Unsigned operands and what DivisionByZero records are the spec's decisions D9 and D12. -/
def Obligations.ModWritesTheRemainder : Prop :=
  ∀ (a b : RegIdx) (s : State),
    encode (.mod (regByte a) (regByte b)) = [0xA4, regByte a, regByte b] ∧
    (s.reg b ≠ 0 → ∃ v : Byte, v.toNat = (s.reg a).toNat % (s.reg b).toNat ∧
      exec (.mod (regByte a) (regByte b)) s = .next { s with regs := s.regs.set a v, pc := s.pc + 3 }) ∧
    (s.reg b = 0 →
      exec (.mod (regByte a) (regByte b)) s =
        .next { s with rs := .faulted, fault := some (.divisionByZero s.pc) })

/-- R105. -/
def Obligations.OrIsBitwise : Prop :=
  ∀ (a b : RegIdx) (s : State),
    encode (.or (regByte a) (regByte b)) = [0xAA, regByte a, regByte b] ∧
    ∃ v : Byte, (∀ k < 8, v.getLsbD k = ((s.reg a).getLsbD k || (s.reg b).getLsbD k)) ∧
      exec (.or (regByte a) (regByte b)) s = .next { s with regs := s.regs.set a v, pc := s.pc + 3 }

/-- R106. -/
def Obligations.XorIsBitwise : Prop :=
  ∀ (a b : RegIdx) (s : State),
    encode (.xor (regByte a) (regByte b)) = [0xAB, regByte a, regByte b] ∧
    ∃ v : Byte, (∀ k < 8, v.getLsbD k = ((s.reg a).getLsbD k ^^ (s.reg b).getLsbD k)) ∧
      exec (.xor (regByte a) (regByte b)) s = .next { s with regs := s.regs.set a v, pc := s.pc + 3 }

/-- R107: `255 - x[ra]`, which inverts each of the 8 bits. -/
def Obligations.NotInvertsEveryBit : Prop :=
  ∀ (a : RegIdx) (s : State),
    encode (.not (regByte a)) = [0x69, regByte a] ∧
    ∃ v : Byte, v.toNat = 255 - (s.reg a).toNat ∧ (∀ k < 8, v.getLsbD k = !(s.reg a).getLsbD k) ∧
      exec (.not (regByte a)) s = .next { s with regs := s.regs.set a v, pc := s.pc + 2 }

/-- 42_alu.md section 4 (R108). The unmasked amount is the spec's decision D10. -/
def Obligations.ShlShiftsByTheWholeByte : Prop :=
  ∀ (a b : RegIdx) (s : State),
    encode (.shl (regByte a) (regByte b)) = [0xAC, regByte a, regByte b] ∧
    ∃ v : Byte, v.toNat = ((s.reg a).toNat * 2 ^ (s.reg b).toNat) % 256 ∧
      ((s.reg b).toNat ≥ 8 → v = 0) ∧
      exec (.shl (regByte a) (regByte b)) s = .next { s with regs := s.regs.set a v, pc := s.pc + 3 }

/-- 42_alu.md section 4 (R109). The unmasked amount and the logical shift are the spec's decisions D10 and D9. -/
def Obligations.ShrShiftsLogically : Prop :=
  ∀ (a b : RegIdx) (s : State),
    encode (.shr (regByte a) (regByte b)) = [0xAD, regByte a, regByte b] ∧
    ∃ v : Byte, v.toNat = (s.reg a).toNat / 2 ^ (s.reg b).toNat ∧
      ((s.reg b).toNat ≥ 8 → v = 0) ∧
      exec (.shr (regByte a) (regByte b)) s = .next { s with regs := s.regs.set a v, pc := s.pc + 3 }

/-- 42_alu.md section 5 (R110), 10_state.md section 4 (R17). Bits 7:3 written 0 and the unsigned comparison are the
spec's decisions D7 and D9. -/
def Obligations.CmpSetsExactlyOneFlag : Prop :=
  ∀ (a b : RegIdx) (s : State),
    encode (.cmp (regByte a) (regByte b)) = [0xA7, regByte a, regByte b] ∧
    ∃ t, exec (.cmp (regByte a) (regByte b)) s = .next t ∧ t = { s with fl := t.fl, pc := s.pc + 3 } ∧
      (t.flagE = true ↔ (s.reg a).toNat = (s.reg b).toNat) ∧
      (t.flagG = true ↔ (s.reg a).toNat > (s.reg b).toNat) ∧
      (t.flagL = true ↔ (s.reg a).toNat < (s.reg b).toNat) ∧
      (t.fl = 0x01 ∨ t.fl = 0x02 ∨ t.fl = 0x04)

/-! ### The stack -/

/-- 43_stack.md section 2 (R122). The fault at `x[7] = 0` and PUSH R7 storing the decremented SP are the spec's decisions
D16 and D17; the canonical memory that its read clause assumes is log entry 4. -/
def Obligations.PushDecrementsThenStores : Prop :=
  ∀ (a : RegIdx) (s : State),
    encode (.push (regByte a)) = [0x45, regByte a] ∧
    (s.sp ≠ 0 → ∃ t, exec (.push (regByte a)) s = .next t ∧
      t = { s with regs := s.regs.set 7 (s.sp - 1), mem := t.mem, pc := s.pc + 2 } ∧
      t.mem = s.mem.write (s.sp.toNat - 1) (if a = 7 then s.sp - 1 else s.reg a) ∧
      (s.mem.wf = true → t.mem.read (s.sp.toNat - 1) = if a = 7 then s.sp - 1 else s.reg a)) ∧
    (s.sp = 0 → exec (.push (regByte a)) s =
      .next { s with rs := .faulted, fault := some (.addressOutOfRange (-1) s.pc .spBelowZero) })

/-- 43_stack.md section 2 (R123). The fault when SP would become 256 and POP R7 ending with the popped byte plus 1 are the
spec's decisions D16 and D17. -/
def Obligations.PopLoadsThenIncrements : Prop :=
  ∀ (a : RegIdx) (s : State),
    encode (.pop (regByte a)) = [0x46, regByte a] ∧
    (a ≠ 7 → s.sp ≠ 255 → exec (.pop (regByte a)) s =
      .next { s with regs := (s.regs.set a (s.mem.read s.sp.toNat)).set 7 (s.sp + 1), pc := s.pc + 2 }) ∧
    (a = 7 → s.mem.read s.sp.toNat ≠ 255 → exec (.pop (regByte a)) s =
      .next { s with regs := s.regs.set 7 (s.mem.read s.sp.toNat + 1), pc := s.pc + 2 }) ∧
    ((a ≠ 7 ∧ s.sp = 255) ∨ (a = 7 ∧ s.mem.read s.sp.toNat = 255) → exec (.pop (regByte a)) s =
      .next { s with rs := .faulted, fault := some (.addressOutOfRange 256 s.pc .spAbove255) })

/-- 43_stack.md section 3 (R124). The two faults and CALL R7 jumping to the decremented SP are the spec's decisions D16,
D6 and D17; the canonical memory that its read clause assumes is log entry 4. -/
def Obligations.CallPushesTheReturnAddress : Prop :=
  ∀ (a : RegIdx) (s : State),
    encode (.call (regByte a)) = [0x50, regByte a] ∧
    (s.sp ≠ 0 → s.pc.toNat ≤ 253 → ∃ t, exec (.call (regByte a)) s = .next t ∧
      t = { s with regs := s.regs.set 7 (s.sp - 1), mem := t.mem, pc := t.pc } ∧
      t.mem = s.mem.write (s.sp.toNat - 1) (BitVec.ofNat 8 (s.pc.toNat + 2)) ∧
      (s.mem.wf = true → (t.mem.read (s.sp.toNat - 1)).toNat = s.pc.toNat + 2) ∧
      t.pc.toNat = (if a = 7 then s.sp.toNat - 1 else (s.reg a).toNat)) ∧
    (s.sp = 0 → exec (.call (regByte a)) s =
      .next { s with rs := .faulted, fault := some (.addressOutOfRange (-1) s.pc .spBelowZero) }) ∧
    (s.sp ≠ 0 → s.pc.toNat = 254 → exec (.call (regByte a)) s =
      .next { s with rs := .faulted, fault := some (.addressOutOfRange 256 s.pc .returnAddress) })

/-- 43_stack.md section 3 (R125). The fault when SP would become 256 is the spec's decision D16. -/
def Obligations.RetJumpsToThePoppedByte : Prop :=
  encode .ret = [0x11] ∧
  ∀ s : State,
    (s.sp ≠ 255 → ∃ t, exec .ret s = .next t ∧
      t = { s with regs := s.regs.set 7 (s.sp + 1), pc := t.pc } ∧
      t.pc.toNat = (s.mem.read s.sp.toNat).toNat) ∧
    (s.sp = 255 → exec .ret s =
      .next { s with rs := .faulted, fault := some (.addressOutOfRange 256 s.pc .spAbove255) })

/-- 43_stack.md section 3 (R127 a), with what it says of R7 (the spec's decisions D17 and D16): PUSH r1 then POP r2, for
every pair of registers, and for r2 = R7 also where the popped byte plus 1 would be 256. Canonical memory is log
entry 4. -/
def Obligations.PushThenPopCopiesAndRestoresSp : Prop :=
  ∀ (a b : RegIdx) (s : State), s.mem.wf = true → s.sp ≠ 0 →
    ∃ t, exec (.push (regByte a)) s = .next t ∧
      (a ≠ 7 → b ≠ 7 → ∃ u, exec (.pop (regByte b)) t = .next u ∧ u.reg b = s.reg a ∧ u.sp = s.sp) ∧
      (a = 7 → b ≠ 7 → ∃ u, exec (.pop (regByte b)) t = .next u ∧ u.reg b = s.sp - 1 ∧ u.sp = s.sp) ∧
      (a ≠ 7 → b = 7 → s.reg a ≠ 255 →
        ∃ u, exec (.pop (regByte b)) t = .next u ∧ u.rs = t.rs ∧ u.sp = s.reg a + 1) ∧
      (a ≠ 7 → b = 7 → s.reg a = 255 →
        exec (.pop (regByte b)) t = .next (raise (.addressOutOfRange 256 t.pc .spAbove255) t)) ∧
      (a = 7 → b = 7 → ∃ u, exec (.pop (regByte b)) t = .next u ∧ u.rs = t.rs ∧ u.sp = s.sp)

/-- 43_stack.md section 3 (R127 b): CALL, then a RET executed anywhere with the SP the CALL left and the byte there
untouched. The bounds are the spec's decisions D6 and D16; canonical memory is log entry 4. -/
def Obligations.CallThenRetReturns : Prop :=
  ∀ (a : RegIdx) (s : State), s.mem.wf = true → s.sp ≠ 0 → s.pc.toNat ≤ 253 →
    ∃ t, exec (.call (regByte a)) s = .next t ∧
      ∀ u : State, u.sp = t.sp → u.mem.read t.sp.toNat = t.mem.read t.sp.toNat →
        ∃ v, exec .ret u = .next v ∧ v.pc = s.pc + 2 ∧ v.sp = s.sp

/-! ### Jumps -/

/-- R140: the PC is the target, even when that is the jump's own address. -/
def Obligations.JmpGoesToTheRegister : Prop :=
  ∀ (a : RegIdx) (s : State),
    encode (.jmp (regByte a)) = [0x54, regByte a] ∧
    exec (.jmp (regByte a)) s = .next { s with pc := (s.reg a).setWidth 9 } ∧
    (s.pc.toNat = (s.reg a).toNat → exec (.jmp (regByte a)) s = .next s)

/-- 44_jumps.md (R141). The index check of a jump not taken is the spec's decision D3. -/
def Obligations.JeqJumpsWhenEqual : Prop :=
  ∀ (a : RegIdx) (s : State),
    encode (.jeq (regByte a)) = [0x55, regByte a] ∧
    (s.fl.getLsbD 0 = true → exec (.jeq (regByte a)) s = .next { s with pc := (s.reg a).setWidth 9 }) ∧
    (s.fl.getLsbD 0 = false → exec (.jeq (regByte a)) s = .next { s with pc := s.pc + 2 }) ∧
    (∀ b : Byte, b.toNat > 7 → exec (.jeq b) s =
      .next { s with rs := .faulted, fault := some (.addressOutOfRange b.toNat s.pc .regIndexA) })

/-- R142: JNE, and for every `FL` exactly one of JEQ and JNE jumps while the other takes the default advance. -/
def Obligations.JneJumpsWhenNotEqual : Prop :=
  ∀ (a : RegIdx) (s : State),
    encode (.jne (regByte a)) = [0x56, regByte a] ∧
    (s.fl.getLsbD 0 = false →
      exec (.jne (regByte a)) s = .next { s with pc := (s.reg a).setWidth 9 } ∧
      exec (.jeq (regByte a)) s = .next { s with pc := s.pc + 2 }) ∧
    (s.fl.getLsbD 0 = true →
      exec (.jne (regByte a)) s = .next { s with pc := s.pc + 2 } ∧
      exec (.jeq (regByte a)) s = .next { s with pc := (s.reg a).setWidth 9 })

/-! ### Frames -/

/-- Frame of LDI, ADD, MUL, MOD, OR, XOR, NOT, SHL, SHR (41_hlt_ldi_prn.md, 42_alu.md): registers but the destination
`ra`, the flags, all of memory and the output are unchanged. -/
def Obligations.RegisterWritersFrame : Prop :=
  ∀ (ra rb : Byte) (s t : State),
    (exec (.ldi ra rb) s = .next t ∨ exec (.add ra rb) s = .next t ∨ exec (.mul ra rb) s = .next t ∨
     exec (.mod ra rb) s = .next t ∨ exec (.or ra rb) s = .next t ∨ exec (.xor ra rb) s = .next t ∨
     exec (.not ra) s = .next t ∨ exec (.shl ra rb) s = .next t ∨ exec (.shr ra rb) s = .next t) →
    (∀ r : RegIdx, r.val ≠ ra.toNat → t.reg r = s.reg r) ∧
    t.fl = s.fl ∧ SameMemory s t ∧ t.out = s.out ∧ SameRunOrRaised s t

/-- Frame of CMP (42_alu.md sections 1 and 5): it writes `FL` only. -/
def Obligations.CmpFrame : Prop :=
  ∀ (ra rb : Byte) (s t : State), exec (.cmp ra rb) s = .next t →
    (∀ r : RegIdx, t.reg r = s.reg r) ∧ SameMemory s t ∧ t.out = s.out ∧ SameRunOrRaised s t

/-- Frame of PRN (41_hlt_ldi_prn.md): it writes the output only, and what was emitted stays. -/
def Obligations.PrnFrame : Prop :=
  ∀ (ra : Byte) (s t : State), exec (.prn ra) s = .next t →
    (∀ r : RegIdx, t.reg r = s.reg r) ∧ t.fl = s.fl ∧ SameMemory s t ∧ s.out <+: t.out ∧ SameRunOrRaised s t

/-- Frame of JMP, JEQ, JNE (44_jumps.md): they write the PC only. -/
def Obligations.JumpFrame : Prop :=
  ∀ (ra : Byte) (s t : State),
    (exec (.jmp ra) s = .next t ∨ exec (.jeq ra) s = .next t ∨ exec (.jne ra) s = .next t) →
    (∀ r : RegIdx, t.reg r = s.reg r) ∧ t.fl = s.fl ∧ SameMemory s t ∧ t.out = s.out ∧ SameRunOrRaised s t

/-- Frame of PUSH and CALL (43_stack.md): registers but R7, the flags and the output are unchanged. They store one byte,
at the address `predecSp` computes from the state, as their meanings do; when it raises a fault they store nothing. -/
def Obligations.PushCallFrame : Prop :=
  ∀ (ra : Byte) (s t : State), (exec (.push ra) s = .next t ∨ exec (.call ra) s = .next t) →
    (∀ r : RegIdx, r ≠ 7 → t.reg r = s.reg r) ∧ t.fl = s.fl ∧ t.out = s.out ∧ SameRunOrRaised s t ∧
    (∀ sp, predecSp s = .ok sp → ∀ a, a ≠ sp.toNat → t.mem.read a = s.mem.read a) ∧
    (∀ f, predecSp s = .error f → SameMemory s t)

/-- Frame of POP and RET (43_stack.md): POP writes its operand and R7, RET R7; the flags, all of memory and the output are
unchanged. -/
def Obligations.PopRetFrame : Prop :=
  ∀ (ra : Byte) (s t : State),
    (exec (.pop ra) s = .next t →
      (∀ r : RegIdx, r ≠ 7 → r.val ≠ ra.toNat → t.reg r = s.reg r) ∧
      t.fl = s.fl ∧ SameMemory s t ∧ t.out = s.out ∧ SameRunOrRaised s t) ∧
    (exec .ret s = .next t →
      (∀ r : RegIdx, r ≠ 7 → t.reg r = s.reg r) ∧
      t.fl = s.fl ∧ SameMemory s t ∧ t.out = s.out ∧ SameRunOrRaised s t)

/-! ### Encoding -/

/-- 30_encoding.md (R56): a few of the words written out bit by bit from the opcode map decode to their instructions. -/
def Obligations.SpecWordsDecode : Prop :=
  decode [0b00000001] = .ok (.hlt, []) ∧
  decode [0b10000010, 0b00000111, 0b10000000] = .ok (.ldi 7 128, []) ∧
  decode [0b10100100, 0b00000010, 0b00000101] = .ok (.mod 2 5, []) ∧
  decode [0b01101001, 0b00000010] = .ok (.not 2, []) ∧
  decode [0b01010000, 0b00000001] = .ok (.call 1, []) ∧
  decode [0b01010110, 0b00000011] = .ok (.jne 3, []) ∧
  decode [0b00000000] = .error (.unrecognizedOpcode 0) ∧
  decode [0b11111111, 0, 0] = .error (.unrecognizedOpcode 255)

/-- R56: the complete opcode map. For each of the 19 rows: the opcode byte, the operands in memory order, their number,
which is bits 7:6; and the 19 bytes are distinct. -/
def Obligations.OpcodeMapIsComplete : Prop :=
  (opcodeBytes.length = 19 ∧ opcodeBytes.Nodup ∧
    opcodeBytes.map (fun op => op.toNat / 64) = [0, 2, 1, 2, 2, 2, 2, 2, 1, 2, 2, 1, 1, 1, 0, 2, 1, 1, 1]) ∧
  (∀ op : Byte, (lookupOpcode op).isSome = true ↔ op ∈ opcodeBytes) ∧
  ∀ (x y : Byte) (z : List Byte),
    decode (0x01 :: z) = .ok (.hlt, z) ∧
    decode (0x82 :: x :: y :: z) = .ok (.ldi x y, z) ∧
    decode (0x47 :: x :: z) = .ok (.prn x, z) ∧
    decode (0xA0 :: x :: y :: z) = .ok (.add x y, z) ∧
    decode (0xA2 :: x :: y :: z) = .ok (.mul x y, z) ∧
    decode (0xA4 :: x :: y :: z) = .ok (.mod x y, z) ∧
    decode (0xAA :: x :: y :: z) = .ok (.or x y, z) ∧
    decode (0xAB :: x :: y :: z) = .ok (.xor x y, z) ∧
    decode (0x69 :: x :: z) = .ok (.not x, z) ∧
    decode (0xAC :: x :: y :: z) = .ok (.shl x y, z) ∧
    decode (0xAD :: x :: y :: z) = .ok (.shr x y, z) ∧
    decode (0x45 :: x :: z) = .ok (.push x, z) ∧
    decode (0x46 :: x :: z) = .ok (.pop x, z) ∧
    decode (0x50 :: x :: z) = .ok (.call x, z) ∧
    decode (0x11 :: z) = .ok (.ret, z) ∧
    decode (0xA7 :: x :: y :: z) = .ok (.cmp x y, z) ∧
    decode (0x54 :: x :: z) = .ok (.jmp x, z) ∧
    decode (0x55 :: x :: z) = .ok (.jeq x, z) ∧
    decode (0x56 :: x :: z) = .ok (.jne x, z)

/-- 30_encoding.md: decoding the bytes of any instruction, with every operand at every byte value, gives it back and
leaves the bytes after it. -/
def Obligations.DecodeOfEncodeIsTheInstruction : Prop :=
  ∀ (i : Instr) (rest : List Byte), decode (encode i ++ rest) = .ok (i, rest)

/-- 30_encoding.md: the other direction. Whatever decodes is the encoding of what it decodes to, so each byte sequence has
one meaning. -/
def Obligations.DecodedBytesAreTheEncoding : Prop :=
  ∀ (bytes : List Byte) (i : Instr) (rest : List Byte),
    decode bytes = .ok (i, rest) → encode i ++ rest = bytes

/-- R51: bits 7:6 of the opcode byte give the number of operand bytes and the length; an opcode with count 3 is
unrecognized; and the count, not knowledge of the instruction, gives the default advance of every instruction that
takes it. -/
def Obligations.TopBitsGiveLengthAndAdvance : Prop :=
  (∀ (op : Byte) (bytes : List Byte) (i : Instr) (rest : List Byte), decode (op :: bytes) = .ok (i, rest) →
    op.toNat / 64 ≤ 2 ∧ (op :: bytes).length = (1 + op.toNat / 64) + rest.length) ∧
  (∀ (op : Byte) (bytes : List Byte), op.toNat / 64 = 3 →
    decode (op :: bytes) = .error (.unrecognizedOpcode op)) ∧
  (∀ (i : Instr) (s t : State), takesDefaultAdvance i s = true → s.rs = .running → exec i s = .next t →
    t.rs = .running →
    t.pc = s.pc + BitVec.ofNat 9 (1 + i.opcodeByte.toNat / 64))

/-- R57: 237 opcode bytes are unrecognized, 0x00, 0xA8 and all from 0xC0 up among them. The step that fetches one raises
UnrecognizedOpcode(byte, address) wherever it lies, address 255 included, so it reads no operand byte; the machine has
halted with a status that is not 0, and nothing was emitted. -/
def Obligations.UnrecognizedOpcodesFault : Prop :=
  ((List.finRange 256).filter fun k => (lookupOpcode (BitVec.ofFin k)).isNone).length = 237 ∧
  (∀ op : Byte, op = 0x00 ∨ op = 0xA8 ∨ op.toNat ≥ 0xC0 → lookupOpcode op = none) ∧
  ∀ s : State, s.rs = .running → s.pc.toNat ≤ 255 → lookupOpcode (s.codeByte 0) = none →
    ∃ t, step s = .next t ∧ t.rs = .faulted ∧ t.fault = some (.unrecognizedOpcode (s.codeByte 0) s.pc) ∧
      t.out = s.out ∧ (¬ ∃ u, step t = .next u) ∧ ∃ n, exitStatus t = some n ∧ n ≠ 0

/-! ### The engine -/

/-- 40_engine.md section 1: when the bytes at PC, as many as lie below address 256, decode to an instruction, the step of a
running machine is exactly `exec` of it at the same state; the step adds nothing around it. -/
def Obligations.StepRunsTheDecodedInstruction : Prop :=
  ∀ (s : State) (i : Instr) (rest : List Byte), s.rs = .running → decode s.codeBytes = .ok (i, rest) →
    step s = exec i s

/-- 40_engine.md section 1 (R72, R74, R75), where the bytes at PC do not decode. The faults at 256 and the bytes read are
the spec's decisions D1 and D2. -/
def Obligations.StepFaultsOnUndecodableBytes : Prop :=
  ∀ s : State, s.rs = .running → s.pc.toNat ≤ 256 →
    (decode s.codeBytes = .error .noOpcode → s.pc.toNat = 256 ∧
      step s = .next (raise (.addressOutOfRange 256 s.pc .opcodeFetch) s)) ∧
    (∀ op, decode s.codeBytes = .error (.unrecognizedOpcode op) →
      step s = .next (raise (.unrecognizedOpcode op s.pc) s)) ∧
    (decode s.codeBytes = .error .noOperand1 → s.pc.toNat = 255 ∧
      step s = .next (raise (.addressOutOfRange 256 s.pc .operand1Fetch) s)) ∧
    (decode s.codeBytes = .error .noOperand2 → s.pc.toNat = 254 ∧
      step s = .next (raise (.addressOutOfRange 256 s.pc .operand2Fetch) s))

/-- R70, and beyond it: a running machine always has a step, so the model stops or refuses nowhere else. -/
def Obligations.StepExistsExactlyWhenRunning : Prop :=
  ∀ s : State, (∃ t, step s = .next t) ↔ s.rs = .running

/-- 40_engine.md section 1: no instruction, whatever its operands and the state, is refused or stops the model. -/
def Obligations.EveryInstructionAnswersNextState : Prop :=
  ∀ (i : Instr) (s : State), ∃ t, exec i s = .next t

/-- 30_encoding.md section 2, 40_engine.md section 1 (R76): a recognized instruction with a register operand above 7 raises
AddressOutOfRange(index), the first bad operand's whole byte, and has no other effect. When and in which order the
check is made is the spec's decisions D3 and D5. -/
def Obligations.BadRegisterOperandRaises : Prop :=
  ∀ (i : Instr) (s : State),
    (i.wellFormed = false → ∃ (pre : List Byte) (b : Byte) (post : List Byte),
      i.registerOperands = pre ++ b :: post ∧ (∀ x ∈ pre, x.toNat ≤ 7) ∧ b.toNat > 7 ∧
      exec i s = .next { s with rs := .faulted, fault := some (.addressOutOfRange b.toNat s.pc
        (if pre = [] then .regIndexA else .regIndexB)) }) ∧
    (∀ (ra imm : Byte), i = .ldi ra imm → (i.wellFormed = true ↔ ra.toNat ≤ 7))

/-- 40_engine.md section 3 (R81), 60_exceptions.md section 3 (R155): a step that raises a fault changes only the run state
and the record; `PC` still holds the faulting instruction's address. All-or-nothing and the third run state are
the spec's decisions D4 and D13. -/
def Obligations.FaultingStepChangesNothingElse : Prop :=
  ∀ s t : State, step s = .next t → t.rs = .faulted → ∃ f : FaultRecord, f.at = s.pc ∧
    t = { s with rs := .faulted, fault := some f }

/-- 60_exceptions.md section 3 (R156) with the table of causes (R153): a running step faults exactly when one of the ten
tests holds, and reports the first that does. The order and the records are the spec's decisions D5 and D12. -/
def Obligations.StepReportsTheFirstFailingTest : Prop :=
  ∀ s t : State, step s = .next t →
    (firstFault s = none → t.rs ≠ .faulted) ∧
    (∀ f, firstFault s = some f → t = raise f s)

/-- 60_exceptions.md section 1 (R153): the value an AddressOutOfRange step records, cause by cause. The values are the
spec's decisions D12, D16 and D6. -/
def Obligations.OutOfRangeValuesAreTheTabledOnes : Prop :=
  ∀ (s t : State) (v : Int) (p : PcWord) (c : RangeCause), s.pc.toNat ≤ 256 →
    step s = .next t → t.fault = some (.addressOutOfRange v p c) → t.rs = .faulted →
    (c = .regIndexA ∨ c = .regIndexB → 8 ≤ v ∧ v ≤ 255) ∧
    (c = .spBelowZero → v = -1) ∧
    (c ≠ .regIndexA → c ≠ .regIndexB → c ≠ .spBelowZero → v = 256)

/-- 10_state.md section 3 (R16): the PC after every step, by the table written out in `pcAfter`. That a faulting step
leaves the PC unchanged and that CALL reads its target after the SP update are the spec's decisions D4 and D17. -/
def Obligations.PcAfterEveryInstruction : Prop :=
  ∀ s t : State, step s = .next t →
    (t.rs = .faulted → t.pc = s.pc) ∧
    (t.rs ≠ .faulted → ∃ i rest, decode s.codeBytes = .ok (i, rest) ∧ t.pc = pcAfter i s)

/-- 10_state.md section 3 (R15): PC arithmetic never wraps. From a PC of at most 256 a step leaves one of at most 256, and
every step that takes the default advance, a JEQ or JNE that does not jump among them, leaves exactly the integer
`PC + 1 + n`. No wrap is the spec's decision D1. -/
def Obligations.PcNeverWraps : Prop :=
  ∀ s t : State, s.pc.toNat ≤ 256 → step s = .next t →
    t.pc.toNat ≤ 256 ∧
    (t.rs = .running → s.codeByte 0 ∉ ([0x50, 0x11, 0x54] : List Byte) →
      (s.codeByte 0 = 0x55 → s.fl.getLsbD 0 = false) → (s.codeByte 0 = 0x56 → s.fl.getLsbD 0 = true) →
      t.pc.toNat = s.pc.toNat + 1 + (s.codeByte 0).toNat / 64)

/-- R18: only CMP writes `FL`, and it changes no register; only JEQ and JNE read it, and bit 0 only. Replace `FL` by any
byte (with the same bit 0, where the instruction is JEQ or JNE): where a CMP completes the step's result is the very
same, `FL` included; anywhere else it is the same but for `FL`, which keeps the byte put there. -/
def Obligations.OnlyCmpWritesAndOnlyJumpsReadFlags : Prop :=
  ∀ s t : State, step s = .next t →
    (s.codeByte 0 ≠ 0xA7 → t.fl = s.fl) ∧
    (s.codeByte 0 = 0xA7 → t.regs = s.regs) ∧
    (∀ f : Byte, (s.codeByte 0 ≠ 0x55 ∧ s.codeByte 0 ≠ 0x56) ∨ f.getLsbD 0 = s.fl.getLsbD 0 →
      (s.codeByte 0 = 0xA7 ∧ t.rs ≠ .faulted → step { s with fl := f } = .next t) ∧
      (¬ (s.codeByte 0 = 0xA7 ∧ t.rs ≠ .faulted) → step { s with fl := f } = .next { t with fl := f }))

/-- 10_state.md section 6 (R23): the output only grows, and only PRN adds to it, one byte, its register's value. The
output stream is the spec's decision D14. -/
def Obligations.OnlyPrnEmits : Prop :=
  ∀ s t : State, step s = .next t →
    t.out = s.out ∨
    (s.codeByte 0 = 0x47 ∧ ∃ r : RegIdx, s.codeByte 1 = regByte r ∧ t.out = s.out ++ [s.reg r])

/-- 10_state.md section 6 (R21): from RUNNING a step stays RUNNING, or reaches HALTED exactly by HLT with no record, or
FAULTED with one. The third run state is the spec's decision D13. -/
def Obligations.RunStateTransitions : Prop :=
  ∀ s t : State, step s = .next t → s.fault = none → s.pc.toNat ≤ 255 →
    s.rs = .running ∧
    (t.rs = .halted ↔ s.codeByte 0 = 0x01) ∧
    (t.rs = .faulted ↔ t.fault ≠ none)

/-- 20_memory.md section 2 (R34): the accesses of every instruction. Writes: a byte of memory changes only by PUSH or CALL,
at the decremented SP. Reads: a byte at an address the table does not list can hold anything and the step does the
same; it leaves every other byte the same, and at that address the byte stored, where the step stores there, else
the byte put there. The canonical form that the second clause assumes is log entry 4; that exactly the counted
operand bytes are read is the spec's decision D2. -/
def Obligations.MemoryAccessesAreTheTabledOnes : Prop :=
  ∀ s t : State, step s = .next t →
    (∀ a, t.mem.read a ≠ s.mem.read a → storesAt s t a) ∧
    (s.mem.wf = true → ∀ (a : Nat) (v : Byte), a ≤ 255 → a ∉ readAddresses s →
      ∃ u, step { s with mem := s.mem.write a v } = .next u ∧
        t = { u with mem := t.mem } ∧ (∀ b, b ≠ a → u.mem.read b = t.mem.read b) ∧
        (storesAt s t a → u.mem.read a = t.mem.read a) ∧ (¬ storesAt s t a → u.mem.read a = v))

/-- 20_memory.md section 4 (R41; the spec's decision D21): a byte stored where the PC goes next is the opcode byte of the very
next step. PUSH of any register, with the slot right after the PUSH (for PUSH R7 the byte is the decremented SP,
decision D17); and CALL to its own slot, of R7 or of a register that holds the slot's address, where the byte is the return
address. Canonical memory is log entry 4. -/
def Obligations.StoredByteIsFetchedNext : Prop :=
  ∀ (a : RegIdx) (s : State), s.rs = .running → s.mem.wf = true → s.codeByte 1 = regByte a →
    (s.codeByte 0 = 0x45 → s.sp.toNat = s.pc.toNat + 3 →
      ∃ t, step s = .next t ∧ t.rs = .running ∧ t.pc = s.pc + 2 ∧
        StepFetches t (if a = 7 then s.sp - 1 else s.reg a)) ∧
    (s.codeByte 0 = 0x50 → s.pc.toNat ≤ 253 → s.sp ≠ 0 → a = 7 ∨ s.reg a = s.sp - 1 →
      ∃ t, step s = .next t ∧ t.rs = .running ∧ t.pc.toNat + 1 = s.sp.toNat ∧
        StepFetches t (BitVec.ofNat 8 (s.pc.toNat + 2)))

/-- 10_state.md section 2 (R11, R12): a register changes only where the instruction names it or, for R7, by PUSH, POP,
CALL or RET; and a register that is neither named nor R7 of those four is not read: it can hold anything, the step
does the same and leaves it. -/
def Obligations.RegistersAreUsedOnlyWhereNamed : Prop :=
  ∀ (s t : State) (r : RegIdx), step s = .next t → ¬ s.namesReg r → (r = 7 → ¬ s.atStackInstr) →
    t.reg r = s.reg r ∧
    ∀ v : Byte, step { s with regs := s.regs.set r v } = .next { t with regs := t.regs.set r v }

/-! ### Memory -/

/-- 20_memory.md section 1 (R31): the two bounds-checked primitives, on every integer address. That memory is in canonical
form, and stays so, is the model's own, log entry 4; the PC and the cause in the record are the spec's decision D12. -/
def Obligations.MemoryPrimitivesCheckBounds : Prop :=
  ∀ (addr : Int) (c : RangeCause) (v : Byte) (s : State), s.mem.wf = true →
    (∀ a : Nat, addr = a → a ≤ 255 →
      memRead addr c s = .ok (s.mem.read a) ∧
      ∃ t, memWrite addr v c s = .ok t ∧ t = { s with mem := t.mem } ∧ t.mem.wf = true ∧
        t.mem.read a = v ∧ ∀ b, b ≠ a → t.mem.read b = s.mem.read b) ∧
    (addr < 0 ∨ addr > 255 →
      memRead addr c s = .error (.addressOutOfRange addr s.pc c) ∧
      memWrite addr v c s = .error (.addressOutOfRange addr s.pc c))

/-- 20_memory.md section 1: the canonical form is one. Two canonical memories that read alike at the 256 addresses are
equal data. The form is the model's own, log entry 4. -/
def Obligations.CanonicalMemoriesAreExtensional : Prop :=
  ∀ m n : Memory, m.wf = true → n.wf = true → (∀ a < 256, m.read a = n.read a) → m = n

/-! ### The invariant -/

/-- 10_state.md section 7: the invariant holds at reset. Its clause on canonical memory is the model's own, log entry 4; the
bound on the PC and the run state FAULTED are the spec's decisions D1 and D13. -/
def Obligations.ResetMeetsTheInvariant : Prop := State.reset.Inv

/-- 70_reset_and_hazards.md section 1: every launch state meets the invariant. Its clause on canonical memory is the model's
own, log entry 4; the bound on the PC, the run state FAULTED and the refusal of a long image are the spec's decisions
D1, D13 and D15. -/
def Obligations.LaunchMeetsTheInvariant : Prop :=
  ∀ (f : Byte) (image : List Byte) (s : State), launchWith f image = .next s → s.Inv

/-- 10_state.md (R15, R22), 20_memory.md (R30), 60_exceptions.md (R155, R156): every step keeps the invariant: canonical
memory, PC at most 256, a record only in FAULTED, and there the record of the first failing test. It rests on the
spec's decisions D1, D4, D5, D12, D13 and on log entry 4. -/
def Obligations.StepKeepsTheInvariant : Prop :=
  ∀ s t : State, s.Inv → step s = .next t → t.Inv
end

