-- ==== Sys2Proof/Laws/State.lean ====
section
/-! SUPPORT. One lemma per field per state update, so that no later proof unfolds a record update. -/

namespace Sys2Proof.Machine

/-! ### State.setReg -/

@[simp] theorem State.setReg_regs (s : State) (r : RegIdx) (v : Byte) : (s.setReg r v).regs = s.regs.set r v := rfl
@[simp] theorem State.setReg_pc (s : State) (r : RegIdx) (v : Byte) : (s.setReg r v).pc = s.pc := rfl
@[simp] theorem State.setReg_fl (s : State) (r : RegIdx) (v : Byte) : (s.setReg r v).fl = s.fl := rfl
@[simp] theorem State.setReg_mem (s : State) (r : RegIdx) (v : Byte) : (s.setReg r v).mem = s.mem := rfl
@[simp] theorem State.setReg_rs (s : State) (r : RegIdx) (v : Byte) : (s.setReg r v).rs = s.rs := rfl
@[simp] theorem State.setReg_fault (s : State) (r : RegIdx) (v : Byte) : (s.setReg r v).fault = s.fault := rfl
@[simp] theorem State.setReg_out (s : State) (r : RegIdx) (v : Byte) : (s.setReg r v).out = s.out := rfl

/-- Reading a register after a write of one: the written one reads the value, every other as before (R11). -/
theorem State.reg_setReg (s : State) (r q : RegIdx) (v : Byte) :
    (s.setReg r v).reg q = if q = r then v else s.reg q := by
  by_cases h : q = r
  · subst h; simp [State.reg]
  · have h' : r.val ≠ q.val := fun e => h (Fin.ext e.symm)
    simp [State.reg, h, h']

@[simp] theorem State.reg_setReg_same (s : State) (r : RegIdx) (v : Byte) : (s.setReg r v).reg r = v := by
  simp [State.reg_setReg]

theorem State.reg_setReg_other (s : State) {r q : RegIdx} (v : Byte) (h : q ≠ r) :
    (s.setReg r v).reg q = s.reg q := by
  simp [State.reg_setReg, h]

/-! ### State.setPc -/

@[simp] theorem State.setPc_regs (s : State) (a : PcWord) : (s.setPc a).regs = s.regs := rfl
@[simp] theorem State.setPc_pc (s : State) (a : PcWord) : (s.setPc a).pc = a := rfl
@[simp] theorem State.setPc_fl (s : State) (a : PcWord) : (s.setPc a).fl = s.fl := rfl
@[simp] theorem State.setPc_mem (s : State) (a : PcWord) : (s.setPc a).mem = s.mem := rfl
@[simp] theorem State.setPc_rs (s : State) (a : PcWord) : (s.setPc a).rs = s.rs := rfl
@[simp] theorem State.setPc_fault (s : State) (a : PcWord) : (s.setPc a).fault = s.fault := rfl
@[simp] theorem State.setPc_out (s : State) (a : PcWord) : (s.setPc a).out = s.out := rfl
@[simp] theorem State.setPc_reg (s : State) (a : PcWord) (r : RegIdx) : (s.setPc a).reg r = s.reg r := rfl

/-! ### State.jumpTo -/

@[simp] theorem State.jumpTo_regs (s : State) (v : Byte) : (s.jumpTo v).regs = s.regs := rfl
@[simp] theorem State.jumpTo_pc (s : State) (v : Byte) : (s.jumpTo v).pc = v.setWidth 9 := rfl
@[simp] theorem State.jumpTo_fl (s : State) (v : Byte) : (s.jumpTo v).fl = s.fl := rfl
@[simp] theorem State.jumpTo_mem (s : State) (v : Byte) : (s.jumpTo v).mem = s.mem := rfl
@[simp] theorem State.jumpTo_rs (s : State) (v : Byte) : (s.jumpTo v).rs = s.rs := rfl
@[simp] theorem State.jumpTo_fault (s : State) (v : Byte) : (s.jumpTo v).fault = s.fault := rfl
@[simp] theorem State.jumpTo_out (s : State) (v : Byte) : (s.jumpTo v).out = s.out := rfl
@[simp] theorem State.jumpTo_reg (s : State) (v : Byte) (r : RegIdx) : (s.jumpTo v).reg r = s.reg r := rfl

/-- A byte target is the same number in the PC (R15). -/
theorem toNat_setWidth_nine (v : Byte) : (v.setWidth 9).toNat = v.toNat := by
  have := v.isLt
  rw [BitVec.toNat_setWidth]; omega

/-! ### State.setFl -/

@[simp] theorem State.setFl_regs (s : State) (v : Byte) : (s.setFl v).regs = s.regs := rfl
@[simp] theorem State.setFl_pc (s : State) (v : Byte) : (s.setFl v).pc = s.pc := rfl
@[simp] theorem State.setFl_fl (s : State) (v : Byte) : (s.setFl v).fl = v := rfl
@[simp] theorem State.setFl_mem (s : State) (v : Byte) : (s.setFl v).mem = s.mem := rfl
@[simp] theorem State.setFl_rs (s : State) (v : Byte) : (s.setFl v).rs = s.rs := rfl
@[simp] theorem State.setFl_fault (s : State) (v : Byte) : (s.setFl v).fault = s.fault := rfl
@[simp] theorem State.setFl_out (s : State) (v : Byte) : (s.setFl v).out = s.out := rfl
@[simp] theorem State.setFl_reg (s : State) (v : Byte) (r : RegIdx) : (s.setFl v).reg r = s.reg r := rfl

/-! ### State.setMem -/

@[simp] theorem State.setMem_regs (s : State) (m : Memory) : (s.setMem m).regs = s.regs := rfl
@[simp] theorem State.setMem_pc (s : State) (m : Memory) : (s.setMem m).pc = s.pc := rfl
@[simp] theorem State.setMem_fl (s : State) (m : Memory) : (s.setMem m).fl = s.fl := rfl
@[simp] theorem State.setMem_mem (s : State) (m : Memory) : (s.setMem m).mem = m := rfl
@[simp] theorem State.setMem_rs (s : State) (m : Memory) : (s.setMem m).rs = s.rs := rfl
@[simp] theorem State.setMem_fault (s : State) (m : Memory) : (s.setMem m).fault = s.fault := rfl
@[simp] theorem State.setMem_out (s : State) (m : Memory) : (s.setMem m).out = s.out := rfl
@[simp] theorem State.setMem_reg (s : State) (m : Memory) (r : RegIdx) : (s.setMem m).reg r = s.reg r := rfl

/-! ### State.emit -/

@[simp] theorem State.emit_regs (s : State) (v : Byte) : (s.emit v).regs = s.regs := rfl
@[simp] theorem State.emit_pc (s : State) (v : Byte) : (s.emit v).pc = s.pc := rfl
@[simp] theorem State.emit_fl (s : State) (v : Byte) : (s.emit v).fl = s.fl := rfl
@[simp] theorem State.emit_mem (s : State) (v : Byte) : (s.emit v).mem = s.mem := rfl
@[simp] theorem State.emit_rs (s : State) (v : Byte) : (s.emit v).rs = s.rs := rfl
@[simp] theorem State.emit_fault (s : State) (v : Byte) : (s.emit v).fault = s.fault := rfl
@[simp] theorem State.emit_out (s : State) (v : Byte) : (s.emit v).out = s.out ++ [v] := rfl
@[simp] theorem State.emit_reg (s : State) (v : Byte) (r : RegIdx) : (s.emit v).reg r = s.reg r := rfl

/-! ### State.setRs -/

@[simp] theorem State.setRs_regs (s : State) (r : RunState) : (s.setRs r).regs = s.regs := rfl
@[simp] theorem State.setRs_pc (s : State) (r : RunState) : (s.setRs r).pc = s.pc := rfl
@[simp] theorem State.setRs_fl (s : State) (r : RunState) : (s.setRs r).fl = s.fl := rfl
@[simp] theorem State.setRs_mem (s : State) (r : RunState) : (s.setRs r).mem = s.mem := rfl
@[simp] theorem State.setRs_rs (s : State) (r : RunState) : (s.setRs r).rs = r := rfl
@[simp] theorem State.setRs_fault (s : State) (r : RunState) : (s.setRs r).fault = s.fault := rfl
@[simp] theorem State.setRs_out (s : State) (r : RunState) : (s.setRs r).out = s.out := rfl
@[simp] theorem State.setRs_reg (s : State) (r : RunState) (q : RegIdx) : (s.setRs r).reg q = s.reg q := rfl

/-! ### raise -/

@[simp] theorem raise_regs (f : FaultRecord) (s : State) : (raise f s).regs = s.regs := rfl
@[simp] theorem raise_pc (f : FaultRecord) (s : State) : (raise f s).pc = s.pc := rfl
@[simp] theorem raise_fl (f : FaultRecord) (s : State) : (raise f s).fl = s.fl := rfl
@[simp] theorem raise_mem (f : FaultRecord) (s : State) : (raise f s).mem = s.mem := rfl
@[simp] theorem raise_rs (f : FaultRecord) (s : State) : (raise f s).rs = .faulted := rfl
@[simp] theorem raise_fault (f : FaultRecord) (s : State) : (raise f s).fault = some f := rfl
@[simp] theorem raise_out (f : FaultRecord) (s : State) : (raise f s).out = s.out := rfl
@[simp] theorem raise_reg (f : FaultRecord) (s : State) (r : RegIdx) : (raise f s).reg r = s.reg r := rfl

/-- `SP` is register 7. -/
theorem State.sp_eq (s : State) : s.sp = s.reg 7 := rfl

end Sys2Proof.Machine
end

