-- ==== Sys2Proof/Laws/Memory.lean ====
section
/-! SUPPORT. The laws of memory: reading after writing, and that every memory operation keeps the canonical form. -/

namespace Sys2Proof.Machine

theorem Memory.read_consCell_other (m : Memory) {a b : Nat} (v : Byte) (h : b ≠ a) :
    (Memory.consCell a v m).read b = m.read b := by
  unfold Memory.consCell; split
  · rfl
  · simp [Memory.read, h]

/-- A write leaves every other address alone, canonical or not. -/
theorem Memory.read_write_other (m : Memory) {a b : Nat} (v : Byte) (h : b ≠ a) :
    (m.write a v).read b = m.read b := by
  induction m with
  | nil => exact Memory.read_consCell_other [] v h
  | cons c m ih =>
    obtain ⟨k, w⟩ := c
    simp only [Memory.write]
    split
    · exact Memory.read_consCell_other _ v h
    · split
      · next hk => subst hk; rw [Memory.read_consCell_other _ v h]; simp [Memory.read, h]
      · by_cases hb : b = k <;> simp [Memory.read, hb, ih]

/-- Canonical from `lo` up lists nothing below `lo`. -/
theorem Memory.read_below {lo : Nat} {m : Memory} (h : Memory.wfFrom lo m = true) {a : Nat} (ha : a < lo) :
    m.read a = Config.memReset := by
  induction m generalizing lo with
  | nil => rfl
  | cons c m ih =>
    obtain ⟨k, w⟩ := c
    simp only [Memory.wfFrom, Bool.and_eq_true, decide_eq_true_eq] at h
    obtain ⟨⟨⟨hk, -⟩, -⟩, hm⟩ := h
    rw [Memory.read, if_neg (by omega)]
    exact ih hm (by omega)

theorem Memory.read_consCell_same {m : Memory} {a : Nat} (v : Byte)
    (h : m.read a = Config.memReset) : (Memory.consCell a v m).read a = v := by
  unfold Memory.consCell; split
  · next hv => rw [h, hv]
  · simp [Memory.read]

theorem Memory.read_write_same_from {lo : Nat} {m : Memory} (h : Memory.wfFrom lo m = true) (a : Nat) (v : Byte) :
    (m.write a v).read a = v := by
  induction m generalizing lo with
  | nil => exact Memory.read_consCell_same v rfl
  | cons c m ih =>
    obtain ⟨k, w⟩ := c
    have h' := h
    simp only [Memory.wfFrom, Bool.and_eq_true, decide_eq_true_eq] at h'
    obtain ⟨⟨⟨-, -⟩, -⟩, hm⟩ := h'
    simp only [Memory.write]
    split
    · next hlt =>
      refine Memory.read_consCell_same v ?_
      rw [Memory.read, if_neg (by omega)]
      exact Memory.read_below hm (by omega)
    · split
      · next hk => subst hk; exact Memory.read_consCell_same v (Memory.read_below hm (by omega))
      · next hk => rw [Memory.read, if_neg hk]; exact ih hm

/-- Reading the address just written gives the value written. -/
theorem Memory.read_write_same {m : Memory} (h : m.wf = true) (a : Nat) (v : Byte) : (m.write a v).read a = v :=
  Memory.read_write_same_from h a v

theorem Memory.wfFrom_mono {lo lo' : Nat} {m : Memory} (hle : lo' ≤ lo) (h : Memory.wfFrom lo m = true) :
    Memory.wfFrom lo' m = true := by
  cases m with
  | nil => rfl
  | cons c m =>
    obtain ⟨k, w⟩ := c
    simp only [Memory.wfFrom, Bool.and_eq_true, decide_eq_true_eq] at h ⊢
    obtain ⟨⟨⟨h1, h2⟩, h3⟩, h4⟩ := h
    exact ⟨⟨⟨by omega, h2⟩, h3⟩, h4⟩

theorem Memory.consCell_wfFrom {lo a : Nat} {m : Memory} (v : Byte) (hlo : lo ≤ a) (ha : a < Config.memSize)
    (h : Memory.wfFrom (a + 1) m = true) : Memory.wfFrom lo (Memory.consCell a v m) = true := by
  unfold Memory.consCell; split
  · exact Memory.wfFrom_mono (by omega) h
  · next hv => simp [Memory.wfFrom, hlo, ha, hv, h]

theorem Memory.write_wfFrom {lo : Nat} {m : Memory} (h : Memory.wfFrom lo m = true) {a : Nat} (hlo : lo ≤ a)
    (ha : a < Config.memSize) (v : Byte) : Memory.wfFrom lo (m.write a v) = true := by
  induction m generalizing lo with
  | nil => exact Memory.consCell_wfFrom v hlo ha rfl
  | cons c m ih =>
    obtain ⟨k, w⟩ := c
    have h' := h
    simp only [Memory.wfFrom, Bool.and_eq_true, decide_eq_true_eq] at h'
    obtain ⟨⟨⟨hk, hk'⟩, hw⟩, hm⟩ := h'
    simp only [Memory.write]
    split
    · next hlt =>
      refine Memory.consCell_wfFrom v hlo ha ?_
      simp [Memory.wfFrom, hk', hw, hm]; omega
    · split
      · next he => subst he; exact Memory.consCell_wfFrom v hlo ha hm
      · next hne => simp [Memory.wfFrom, hk, hk', hw, ih hm (by omega : k + 1 ≤ a)]

/-- A write below 256 keeps the canonical form. -/
theorem Memory.write_wf {m : Memory} (h : m.wf = true) {a : Nat} (ha : a < Config.memSize) (v : Byte) :
    (m.write a v).wf = true :=
  Memory.write_wfFrom h (Nat.zero_le a) ha v

/-- Storing bytes that all lie below 256 keeps the canonical form. -/
theorem storeBytes_wf {a : Nat} {bs : List Byte} {m : Memory} (h : m.wf = true)
    (ha : a + bs.length ≤ Config.memSize) : (storeBytes a bs m).wf = true := by
  induction bs generalizing a m with
  | nil => exact h
  | cons b bs ih =>
    simp only [List.length_cons] at ha
    exact ih (Memory.write_wf h (by omega) b) (by omega)

/-- The state after reset has a canonical memory. -/
theorem State.reset_mem_wf : State.reset.mem.wf = true := rfl

/-- Storing an instruction word where the next fetch reads keeps the canonical form. -/
theorem State.withFetchWord_mem_wf {s : State} (h : s.mem.wf = true) (hpc : s.pc.toNat ≤ 256) (nbits w : Nat) :
    (s.withFetchWord nbits w).mem.wf = true := by
  refine storeBytes_wf h ?_
  simp [Config.memSize]; omega

end Sys2Proof.Machine
end

