-- ==== Sys2Proof/Laws/Ops.lean ====
section
/-! SUPPORT. For each shared operation, what it can do, said once. -/

namespace Sys2Proof.Machine

@[simp] theorem narrow_toNat (v : Byte) : narrow v.toNat = v := by simp [narrow]

theorem toNat_narrow (n : Nat) : (narrow n).toNat = n % 256 := by simp [narrow]

/-- A read at a byte's address is in range (R44). -/
@[simp] theorem memRead_byte (a : Byte) (c : RangeCause) (s : State) :
    memRead a.toNat c s = .ok (s.mem.read a.toNat) := by
  have := a.isLt
  rw [memRead, if_pos (by omega)]; rfl

/-- A write at a byte's address is in range (R44). -/
@[simp] theorem memWrite_byte (a v : Byte) (c : RangeCause) (s : State) :
    memWrite a.toNat v c s = .ok (s.setMem (s.mem.write a.toNat v)) := by
  have := a.isLt
  rw [memWrite, if_pos (by omega)]; rfl

theorem memRead_inRange {a : Nat} (h : a ≤ 255) (c : RangeCause) (s : State) :
    memRead a c s = .ok (s.mem.read a) := by
  rw [memRead, if_pos (by omega)]; rfl

theorem memRead_outOfRange {a : Int} (h : a < 0 ∨ 255 < a) (c : RangeCause) (s : State) :
    memRead a c s = .error (.addressOutOfRange a s.pc c) := by
  rw [memRead, if_neg (by omega)]

theorem regByte_toNat (r : RegIdx) : (regByte r).toNat = r.val := by
  have := r.isLt
  simp only [regByte, BitVec.toNat_ofNat]; omega

/-- A register's own operand byte passes the check. -/
@[simp] theorem checkReg_regByte (r : RegIdx) (c : RangeCause) (s : State) : checkReg (regByte r) c s = .ok r := by
  have hr := r.isLt
  have h : (regByte r).toNat < 8 := by rw [regByte_toNat]; exact hr
  rw [checkReg, dif_pos h]
  exact congrArg Except.ok (Fin.ext (regByte_toNat r))

/-- The register check answers the register whose operand byte it was given, or raises its fault for a byte above 7. -/
theorem checkReg_cases (b : Byte) (c : RangeCause) (s : State) :
    (∃ r : RegIdx, b = regByte r ∧ b.toNat ≤ 7 ∧ checkReg b c s = .ok r) ∨
    (b.toNat > 7 ∧ checkReg b c s = .error (.addressOutOfRange b.toNat s.pc c)) := by
  by_cases h : b.toNat < 8
  · refine .inl ⟨⟨b.toNat, h⟩, ?_, by omega, by rw [checkReg, dif_pos h]⟩
    apply BitVec.eq_of_toNat_eq; rw [regByte_toNat]
  · exact .inr ⟨by omega, by rw [checkReg, dif_neg h]⟩

/-- The decremented SP, or AddressOutOfRange(-1) exactly when `x[7]` is 0 (R121). -/
theorem predecSp_cases (s : State) :
    (s.sp = 0 ∧ predecSp s = .error (.addressOutOfRange (-1) s.pc .spBelowZero)) ∨
    (s.sp ≠ 0 ∧ predecSp s = .ok (s.sp - 1) ∧ (s.sp - 1).toNat = s.sp.toNat - 1) := by
  by_cases h : s.sp = 0
  · exact .inl ⟨h, by simp [predecSp, h]⟩
  · have hlt := s.sp.isLt
    have h0 : s.sp.toNat ≠ 0 := fun e => h (BitVec.eq_of_toNat_eq (by simpa using e))
    have hsub : (s.sp - 1).toNat = s.sp.toNat - 1 := by
      rw [BitVec.toNat_sub]
      simp only [BitVec.ofNat_eq_ofNat, BitVec.toNat_ofNat]; omega
    refine .inr ⟨h, ?_, hsub⟩
    simp only [predecSp]
    rw [if_neg (by omega)]
    refine congrArg Except.ok (BitVec.eq_of_toNat_eq ?_)
    rw [toNat_narrow, hsub]; omega

/-- The incremented byte, or AddressOutOfRange(256) exactly when it is 255 (R121). -/
theorem postincSp_cases (t : Byte) (s : State) :
    (t = 255 ∧ postincSp t s = .error (.addressOutOfRange 256 s.pc .spAbove255)) ∨
    (t ≠ 255 ∧ postincSp t s = .ok (t + 1) ∧ (t + 1).toNat = t.toNat + 1) := by
  by_cases h : t = 255
  · exact .inl ⟨h, by subst h; simp [postincSp]⟩
  · have hlt := t.isLt
    have h0 : t.toNat ≠ 255 := fun e => h (BitVec.eq_of_toNat_eq (by simpa using e))
    have hadd : (t + 1).toNat = t.toNat + 1 := by
      rw [BitVec.toNat_add]
      simp only [BitVec.ofNat_eq_ofNat, BitVec.toNat_ofNat]; omega
    refine .inr ⟨h, ?_, hadd⟩
    simp only [postincSp]
    rw [if_neg (by omega)]
    refine congrArg Except.ok (BitVec.eq_of_toNat_eq ?_)
    rw [toNat_narrow, hadd]; omega

/-- The count in an instruction's opcode byte is the number of its operand bytes (R51, R56). -/
theorem operandCount_opcodeByte (i : Instr) : operandCount i.opcodeByte = i.operandBytes.length := by
  cases i <;> simp [Instr.opcodeByte, Instr.operandBytes, operandCount]

/-- The end of a step, when the handler raised a fault (R81). -/
theorem finish_error {i : Instr} {h : Handler} {s : State} {f : FaultRecord} (e : h s = .error f) :
    finish i h s = .next (raise f s) := by
  rw [finish, e]

/-- The end of a step, when the handler completed (R78). -/
theorem finish_ok {i : Instr} {h : Handler} {s : State} {r : State × PcResult} (e : h s = .ok r) :
    finish i h s = .next (retire i.opcodeByte s r) := by
  rw [finish, e]

/-- Everything the end of a step can do: it always answers a next state, which is the fault raised or the handler's
result after PC control. -/
theorem finish_cases {i : Instr} {h : Handler} {s t : State} (e : finish i h s = .next t) :
    (∃ f, h s = .error f ∧ t = raise f s) ∨ (∃ r, h s = .ok r ∧ t = retire i.opcodeByte s r) := by
  cases hs : h s with
  | error f => rw [finish_error hs] at e; cases e; exact .inl ⟨f, rfl, rfl⟩
  | ok r => rw [finish_ok hs] at e; cases e; exact .inr ⟨r, rfl, rfl⟩

theorem finish_answers (i : Instr) (h : Handler) (s : State) : ∃ t, finish i h s = .next t := by
  cases hs : h s with
  | error f => exact ⟨_, finish_error hs⟩
  | ok r => exact ⟨_, finish_ok hs⟩

@[simp] theorem retire_advance (op : Byte) (s t : State) :
    retire op s (t, .advance) = t.setPc (s.pc + BitVec.ofNat 9 (1 + operandCount op)) := rfl

@[simp] theorem retire_pcSet (op : Byte) (s t : State) : retire op s (t, .pcSet) = t := rfl

/-- PC control writes the PC and nothing else (R78). -/
theorem retire_frame (op : Byte) (s : State) (r : State × PcResult) :
    (retire op s r).regs = r.1.regs ∧ (retire op s r).fl = r.1.fl ∧ (retire op s r).mem = r.1.mem ∧
    (retire op s r).rs = r.1.rs ∧ (retire op s r).fault = r.1.fault ∧ (retire op s r).out = r.1.out := by
  obtain ⟨t, c⟩ := r
  cases c <;> simp

/-- Format F1R on a legal operand byte is its handler (R76). -/
@[simp] theorem withReg_regByte (a : RegIdx) (h : RegIdx → Handler) (s : State) :
    withReg (regByte a) h s = h a s := by
  simp [withReg, bind, Except.bind]

/-- Format F2RR on legal operand bytes is its handler (R76). -/
@[simp] theorem withRegs_regByte (a b : RegIdx) (h : RegIdx → RegIdx → Handler) (s : State) :
    withRegs (regByte a) (regByte b) h s = h a b s := by
  simp [withRegs, bind, Except.bind]

/-- Format F2RI on a legal operand byte is its handler, the immediate untouched (R55, R76). -/
@[simp] theorem withRegImm_regByte (a : RegIdx) (imm : Byte) (h : RegIdx → Byte → Handler) (s : State) :
    withRegImm (regByte a) imm h s = h a imm s := by
  simp [withRegImm, bind, Except.bind]

/-- Everything format F1R can do: run its handler on the register named, or raise cause d (R76, R153). -/
theorem withReg_cases (ra : Byte) (h : RegIdx → Handler) (s : State) :
    (∃ a, ra = regByte a ∧ withReg ra h s = h a s) ∨
    (ra.toNat > 7 ∧ withReg ra h s = .error (.addressOutOfRange ra.toNat s.pc .regIndexA)) := by
  obtain ⟨a, rfl, -, -⟩ | ⟨h7, e⟩ := checkReg_cases ra .regIndexA s
  · exact .inl ⟨a, rfl, withReg_regByte a h s⟩
  · exact .inr ⟨h7, by simp [withReg, e, bind, Except.bind]⟩

/-- Everything format F2RR can do: run its handler on the registers named, or raise cause d, or cause e (R76, R153). -/
theorem withRegs_cases (ra rb : Byte) (h : RegIdx → RegIdx → Handler) (s : State) :
    (∃ a b, ra = regByte a ∧ rb = regByte b ∧ withRegs ra rb h s = h a b s) ∨
    (ra.toNat > 7 ∧ withRegs ra rb h s = .error (.addressOutOfRange ra.toNat s.pc .regIndexA)) ∨
    (ra.toNat ≤ 7 ∧ rb.toNat > 7 ∧
      withRegs ra rb h s = .error (.addressOutOfRange rb.toNat s.pc .regIndexB)) := by
  obtain ⟨a, rfl, ha, ea⟩ | ⟨h7, e⟩ := checkReg_cases ra .regIndexA s
  · obtain ⟨b, rfl, -, -⟩ | ⟨h7, e⟩ := checkReg_cases rb .regIndexB s
    · exact .inl ⟨a, b, rfl, rfl, withRegs_regByte a b h s⟩
    · exact .inr (.inr ⟨ha, h7, by simp [withRegs, e, bind, Except.bind]⟩)
  · exact .inr (.inl ⟨h7, by simp [withRegs, e, bind, Except.bind]⟩)

/-- Everything format F2RI can do: run its handler on the register named, or raise cause d (R76, R153). -/
theorem withRegImm_cases (ra imm : Byte) (h : RegIdx → Byte → Handler) (s : State) :
    (∃ a, ra = regByte a ∧ withRegImm ra imm h s = h a imm s) ∨
    (ra.toNat > 7 ∧ withRegImm ra imm h s = .error (.addressOutOfRange ra.toNat s.pc .regIndexA)) := by
  obtain ⟨a, rfl, -, -⟩ | ⟨h7, e⟩ := checkReg_cases ra .regIndexA s
  · exact .inl ⟨a, rfl, withRegImm_regByte a imm h s⟩
  · exact .inr ⟨h7, by simp [withRegImm, e, bind, Except.bind]⟩

end Sys2Proof.Machine
end

