-- ==== Sys2Proof/Laws/Stack.lean ====
section
/-! SUPPORT. What the handlers of PUSH, POP, CALL and RET can do, said once (spec/43_stack.md R121 to R125). -/

namespace Sys2Proof.Machine

/-- PUSH: SP underflow, or the byte stored at the decremented SP (R122). -/
theorem pushHandler_cases (a : RegIdx) (s : State) :
    (s.sp = 0 ∧ pushHandler a s = .error (.addressOutOfRange (-1) s.pc .spBelowZero)) ∨
    (s.sp ≠ 0 ∧ pushHandler a s = .ok
      ((s.setReg 7 (s.sp - 1)).setMem (s.mem.write (s.sp - 1).toNat ((s.setReg 7 (s.sp - 1)).reg a)), .advance)) := by
  obtain ⟨h, e⟩ | ⟨h, e, -⟩ := predecSp_cases s
  · exact .inl ⟨h, by simp only [pushHandler, e]; rfl⟩
  · refine .inr ⟨h, ?_⟩
    simp only [pushHandler, e, bind, Except.bind, memWrite_byte]
    rfl

/-- CALL: SP underflow, then a return address of 256 or more, or the return address stored and the jump (R124). -/
theorem callHandler_cases (a : RegIdx) (s : State) :
    (s.sp = 0 ∧ callHandler a s = .error (.addressOutOfRange (-1) s.pc .spBelowZero)) ∨
    (s.sp ≠ 0 ∧ s.pc.toNat > 253 ∧ callHandler a s = .error (.addressOutOfRange 256 s.pc .returnAddress)) ∨
    (s.sp ≠ 0 ∧ s.pc.toNat ≤ 253 ∧ callHandler a s = .ok
      (((s.setReg 7 (s.sp - 1)).setMem (s.mem.write (s.sp - 1).toNat (narrow (s.pc.toNat + 2)))).jumpTo
        ((s.setReg 7 (s.sp - 1)).reg a), .pcSet)) := by
  obtain ⟨h, e⟩ | ⟨h, e, -⟩ := predecSp_cases s
  · exact .inl ⟨h, by simp only [callHandler, e]; rfl⟩
  · by_cases hp : s.pc.toNat + 2 > 255
    · exact .inr (.inl ⟨h, by omega, by simp only [callHandler, e, bind, Except.bind, if_pos hp]⟩)
    · refine .inr (.inr ⟨h, by omega, ?_⟩)
      simp only [callHandler, e, bind, Except.bind, if_neg hp, memWrite_byte]
      rfl

/-- POP: SP overflow, or the byte loaded and SP incremented; for POP R7 both are of the popped byte (R123). -/
theorem popHandler_cases (a : RegIdx) (s : State) :
    ((if a = 7 then s.mem.read s.sp.toNat else s.sp) = 255 ∧
      popHandler a s = .error (.addressOutOfRange 256 s.pc .spAbove255)) ∨
    ((if a = 7 then s.mem.read s.sp.toNat else s.sp) ≠ 255 ∧
      popHandler a s = .ok ((s.setReg a (s.mem.read s.sp.toNat)).setReg 7
        ((if a = 7 then s.mem.read s.sp.toNat else s.sp) + 1), .advance)) := by
  obtain ⟨h, e⟩ | ⟨h, e, -⟩ := postincSp_cases (if a = Config.spReg then s.mem.read s.sp.toNat else s.sp) s
  · refine .inl ⟨h, ?_⟩
    simp only [popHandler, memRead_byte, bind, Except.bind, e]
  · refine .inr ⟨h, ?_⟩
    simp only [popHandler, memRead_byte, bind, Except.bind, e]
    rfl

/-- RET: SP overflow, or SP incremented and the jump to the loaded byte (R125). -/
theorem retHandler_cases (s : State) :
    (s.sp = 255 ∧ retHandler s = .error (.addressOutOfRange 256 s.pc .spAbove255)) ∨
    (s.sp ≠ 255 ∧
      retHandler s = .ok ((s.setReg 7 (s.sp + 1)).jumpTo (s.mem.read s.sp.toNat), .pcSet)) := by
  obtain ⟨h, e⟩ | ⟨h, e, -⟩ := postincSp_cases s.sp s
  · exact .inl ⟨h, by simp only [retHandler, memRead_byte, bind, Except.bind, e]⟩
  · refine .inr ⟨h, ?_⟩
    simp only [retHandler, memRead_byte, bind, Except.bind, e]
    rfl

end Sys2Proof.Machine
end

