-- ==== Sys2Proof/Laws/Effect.lean ====
section
/-! SUPPORT. Everything `exec` can do, said once: a relation with one rule for each way an instruction ends, and the proof
that `exec` answers by one of its rules. A later proof takes the relation apart instead of unfolding the meanings. -/

namespace Sys2Proof.Machine

/-- `Effect s i t`: the instruction `i` takes `s` to `t`. -/
inductive Effect (s : State) : Instr → State → Prop where
  | hlt : Effect s .hlt (s.setRs .halted)
  | ldi (a : RegIdx) (imm : Byte) : Effect s (.ldi (regByte a) imm) ((s.setReg a imm).setPc (s.pc + 3))
  | prn (a : RegIdx) : Effect s (.prn (regByte a)) ((s.emit (s.reg a)).setPc (s.pc + 2))
  | add (a b : RegIdx) : Effect s (.add (regByte a) (regByte b))
      ((s.setReg a (aluAdd (s.reg a) (s.reg b))).setPc (s.pc + 3))
  | mul (a b : RegIdx) : Effect s (.mul (regByte a) (regByte b))
      ((s.setReg a (aluMul (s.reg a) (s.reg b))).setPc (s.pc + 3))
  | mod (a b : RegIdx) (h : s.reg b ≠ 0) : Effect s (.mod (regByte a) (regByte b))
      ((s.setReg a (aluMod (s.reg a) (s.reg b))).setPc (s.pc + 3))
  | or (a b : RegIdx) : Effect s (.or (regByte a) (regByte b))
      ((s.setReg a (aluOr (s.reg a) (s.reg b))).setPc (s.pc + 3))
  | xor (a b : RegIdx) : Effect s (.xor (regByte a) (regByte b))
      ((s.setReg a (aluXor (s.reg a) (s.reg b))).setPc (s.pc + 3))
  | not (a : RegIdx) : Effect s (.not (regByte a)) ((s.setReg a (aluNot (s.reg a))).setPc (s.pc + 2))
  | shl (a b : RegIdx) : Effect s (.shl (regByte a) (regByte b))
      ((s.setReg a (aluShl (s.reg a) (s.reg b))).setPc (s.pc + 3))
  | shr (a b : RegIdx) : Effect s (.shr (regByte a) (regByte b))
      ((s.setReg a (aluShr (s.reg a) (s.reg b))).setPc (s.pc + 3))
  | cmp (a b : RegIdx) : Effect s (.cmp (regByte a) (regByte b))
      ((s.setFl (compareFlags (s.reg a) (s.reg b))).setPc (s.pc + 3))
  | push (a : RegIdx) (h : s.sp ≠ 0) : Effect s (.push (regByte a))
      (((s.setReg 7 (s.sp - 1)).setMem
        (s.mem.write (s.sp - 1).toNat ((s.setReg 7 (s.sp - 1)).reg a))).setPc (s.pc + 2))
  | pop (a : RegIdx) (h : (if a = 7 then s.mem.read s.sp.toNat else s.sp) ≠ 255) : Effect s (.pop (regByte a))
      (((s.setReg a (s.mem.read s.sp.toNat)).setReg 7
        ((if a = 7 then s.mem.read s.sp.toNat else s.sp) + 1)).setPc (s.pc + 2))
  | call (a : RegIdx) (h : s.sp ≠ 0) (hp : s.pc.toNat ≤ 253) : Effect s (.call (regByte a))
      (((s.setReg 7 (s.sp - 1)).setMem (s.mem.write (s.sp - 1).toNat (narrow (s.pc.toNat + 2)))).jumpTo
        ((s.setReg 7 (s.sp - 1)).reg a))
  | ret (h : s.sp ≠ 255) : Effect s .ret ((s.setReg 7 (s.sp + 1)).jumpTo (s.mem.read s.sp.toNat))
  | jmp (a : RegIdx) : Effect s (.jmp (regByte a)) (s.jumpTo (s.reg a))
  | jeqTaken (a : RegIdx) (h : s.flagE = true) : Effect s (.jeq (regByte a)) (s.jumpTo (s.reg a))
  | jeqNot (a : RegIdx) (h : s.flagE = false) : Effect s (.jeq (regByte a)) (s.setPc (s.pc + 2))
  | jneTaken (a : RegIdx) (h : s.flagE = false) : Effect s (.jne (regByte a)) (s.jumpTo (s.reg a))
  | jneNot (a : RegIdx) (h : s.flagE = true) : Effect s (.jne (regByte a)) (s.setPc (s.pc + 2))
  | badA (i : Instr) (b : Byte) (rest : List Byte) (hi : i.registerOperands = b :: rest) (h : b.toNat > 7) :
      Effect s i (raise (.addressOutOfRange b.toNat s.pc .regIndexA) s)
  | badB (i : Instr) (a b : Byte) (hi : i.registerOperands = [a, b]) (ha : a.toNat ≤ 7) (h : b.toNat > 7) :
      Effect s i (raise (.addressOutOfRange b.toNat s.pc .regIndexB) s)
  | modZero (a b : RegIdx) (h : s.reg b = 0) : Effect s (.mod (regByte a) (regByte b)) (raise (.divisionByZero s.pc) s)
  | pushLow (a : RegIdx) (h : s.sp = 0) : Effect s (.push (regByte a))
      (raise (.addressOutOfRange (-1) s.pc .spBelowZero) s)
  | callLow (a : RegIdx) (h : s.sp = 0) : Effect s (.call (regByte a))
      (raise (.addressOutOfRange (-1) s.pc .spBelowZero) s)
  | callReturn (a : RegIdx) (h : s.sp ≠ 0) (hp : s.pc.toNat > 253) : Effect s (.call (regByte a))
      (raise (.addressOutOfRange 256 s.pc .returnAddress) s)
  | popHigh (a : RegIdx) (h : (if a = 7 then s.mem.read s.sp.toNat else s.sp) = 255) : Effect s (.pop (regByte a))
      (raise (.addressOutOfRange 256 s.pc .spAbove255) s)
  | retHigh (h : s.sp = 255) : Effect s .ret (raise (.addressOutOfRange 256 s.pc .spAbove255) s)

/-- Format F1R: the step is the handler's on the register named, or cause d. -/
theorem effect_withReg {i : Instr} {ra : Byte} {h : RegIdx → Handler} {s t : State}
    (hi : i.registerOperands = [ra]) (e : finish i (withReg ra h) s = .next t) :
    Effect s i t ∨ ∃ a, ra = regByte a ∧ finish i (h a) s = .next t := by
  obtain ⟨a, rfl, eh⟩ | ⟨h7, eh⟩ := withReg_cases ra h s
  · exact .inr ⟨a, rfl, by rw [← e, finish, finish, eh]⟩
  · rw [finish_error eh] at e; cases e
    exact .inl (.badA i ra [] hi h7)

/-- Format F2RR: the step is the handler's on the registers named, or cause d, or cause e. -/
theorem effect_withRegs {i : Instr} {ra rb : Byte} {h : RegIdx → RegIdx → Handler} {s t : State}
    (hi : i.registerOperands = [ra, rb]) (e : finish i (withRegs ra rb h) s = .next t) :
    Effect s i t ∨ ∃ a b, ra = regByte a ∧ rb = regByte b ∧ finish i (h a b) s = .next t := by
  obtain ⟨a, b, rfl, rfl, eh⟩ | ⟨h7, eh⟩ | ⟨ha, h7, eh⟩ := withRegs_cases ra rb h s
  · exact .inr ⟨a, b, rfl, rfl, by rw [← e, finish, finish, eh]⟩
  · rw [finish_error eh] at e; cases e
    exact .inl (.badA i ra [rb] hi h7)
  · rw [finish_error eh] at e; cases e
    exact .inl (.badB i ra rb hi ha h7)

/-- A handler that completes with the default advance. -/
theorem finish_advance {i : Instr} {h : Handler} {s t u : State} (e : finish i h s = .next t)
    (eh : h s = .ok (u, .advance)) : t = u.setPc (s.pc + BitVec.ofNat 9 (1 + i.operandBytes.length)) := by
  rw [finish_ok eh, retire_advance, operandCount_opcodeByte] at e
  cases e; rfl

/-- A handler that completes with the PC set. -/
theorem finish_pcSet {i : Instr} {h : Handler} {s t u : State} (e : finish i h s = .next t)
    (eh : h s = .ok (u, .pcSet)) : t = u := by
  rw [finish_ok eh, retire_pcSet] at e
  cases e; rfl

/-- A handler that raises a fault. -/
theorem finish_raise {i : Instr} {h : Handler} {s t : State} {f : FaultRecord} (e : finish i h s = .next t)
    (eh : h s = .error f) : t = raise f s := by
  rw [finish_error eh] at e
  cases e; rfl

/-- Every next state `exec` answers is one of the rules of `Effect`. -/
theorem exec_effect {i : Instr} {s t : State} (e : exec i s = .next t) : Effect s i t := by
  cases i with
  | hlt => cases e; exact .hlt
  | ldi ra imm =>
    obtain ⟨a, rfl, eh⟩ | ⟨h7, eh⟩ := withRegImm_cases ra imm (fun a v s => .ok (s.setReg a v, .advance)) s
    · rw [finish_advance e eh]; exact .ldi a imm
    · rw [finish_raise e eh]; exact .badA _ ra [] rfl h7
  | prn ra =>
    obtain r | ⟨a, rfl, e⟩ := effect_withReg rfl e
    · exact r
    · rw [finish_advance e rfl]; exact .prn a
  | add ra rb =>
    obtain r | ⟨a, b, rfl, rfl, e⟩ := effect_withRegs rfl e
    · exact r
    · rw [finish_advance e rfl]; exact .add a b
  | mul ra rb =>
    obtain r | ⟨a, b, rfl, rfl, e⟩ := effect_withRegs rfl e
    · exact r
    · rw [finish_advance e rfl]; exact .mul a b
  | mod ra rb =>
    obtain r | ⟨a, b, rfl, rfl, e⟩ := effect_withRegs rfl e
    · exact r
    · by_cases h : s.reg b = 0
      · rw [finish_raise (f := .divisionByZero s.pc) e (by rw [modHandler, if_pos h])]; exact .modZero a b h
      · have eh : modHandler a b s = .ok (s.setReg a (aluMod (s.reg a) (s.reg b)), .advance) := by
          rw [modHandler, if_neg h]; rfl
        rw [finish_advance e eh]; exact .mod a b h
  | or ra rb =>
    obtain r | ⟨a, b, rfl, rfl, e⟩ := effect_withRegs rfl e
    · exact r
    · rw [finish_advance e rfl]; exact .or a b
  | xor ra rb =>
    obtain r | ⟨a, b, rfl, rfl, e⟩ := effect_withRegs rfl e
    · exact r
    · rw [finish_advance e rfl]; exact .xor a b
  | not ra =>
    obtain r | ⟨a, rfl, e⟩ := effect_withReg rfl e
    · exact r
    · rw [finish_advance e rfl]; exact .not a
  | shl ra rb =>
    obtain r | ⟨a, b, rfl, rfl, e⟩ := effect_withRegs rfl e
    · exact r
    · rw [finish_advance e rfl]; exact .shl a b
  | shr ra rb =>
    obtain r | ⟨a, b, rfl, rfl, e⟩ := effect_withRegs rfl e
    · exact r
    · rw [finish_advance e rfl]; exact .shr a b
  | cmp ra rb =>
    obtain r | ⟨a, b, rfl, rfl, e⟩ := effect_withRegs rfl e
    · exact r
    · rw [finish_advance e rfl]; exact .cmp a b
  | push ra =>
    obtain r | ⟨a, rfl, e⟩ := effect_withReg rfl e
    · exact r
    · obtain ⟨h, eh⟩ | ⟨h, eh⟩ := pushHandler_cases a s
      · rw [finish_raise e eh]; exact .pushLow a h
      · rw [finish_advance e eh]; exact .push a h
  | pop ra =>
    obtain r | ⟨a, rfl, e⟩ := effect_withReg rfl e
    · exact r
    · obtain ⟨h, eh⟩ | ⟨h, eh⟩ := popHandler_cases a s
      · rw [finish_raise e eh]; exact .popHigh a h
      · rw [finish_advance e eh]; exact .pop a h
  | call ra =>
    obtain r | ⟨a, rfl, e⟩ := effect_withReg rfl e
    · exact r
    · obtain ⟨h, eh⟩ | ⟨h, hp, eh⟩ | ⟨h, hp, eh⟩ := callHandler_cases a s
      · rw [finish_raise e eh]; exact .callLow a h
      · rw [finish_raise e eh]; exact .callReturn a h hp
      · rw [finish_pcSet e eh]; exact .call a h hp
  | ret =>
    obtain ⟨h, eh⟩ | ⟨h, eh⟩ := retHandler_cases s
    · rw [finish_raise e eh]; exact .retHigh h
    · rw [finish_pcSet e eh]; exact .ret h
  | jmp ra =>
    obtain r | ⟨a, rfl, e⟩ := effect_withReg rfl e
    · exact r
    · rw [finish_pcSet e rfl]; exact .jmp a
  | jeq ra =>
    obtain r | ⟨a, rfl, e⟩ := effect_withReg rfl e
    · exact r
    · cases h : s.flagE with
      | true => rw [h] at e; rw [finish_pcSet e rfl]; exact .jeqTaken a h
      | false => rw [h] at e; rw [finish_advance e rfl]; exact .jeqNot a h
  | jne ra =>
    obtain r | ⟨a, rfl, e⟩ := effect_withReg rfl e
    · exact r
    · cases h : s.flagE with
      | true => rw [h] at e; rw [finish_advance e rfl]; exact .jneNot a h
      | false => rw [h] at e; rw [finish_pcSet e rfl]; exact .jneTaken a h

end Sys2Proof.Machine
end

