-- ==== Sys2Proof/Laws/Fetch.lean ====
section
/-! SUPPORT. What the opcode lookup, the fetch and the step can do, said once (spec/40_engine.md R70 to R75). -/

namespace Sys2Proof

/-- A row found is a row of the table under the opcode looked up (R52). -/
theorem lookupOpcode_some {op : Byte} {row : OpcodeRow} (h : lookupOpcode op = some row) :
    row ∈ opcodeTable ∧ row.opcode = op :=
  ⟨List.mem_of_find?_eq_some h, by simpa using List.find?_some h⟩

/-- The row of an instruction's own opcode byte. -/
theorem lookupOpcode_opcodeByte (i : Instr) :
    ∃ row, lookupOpcode i.opcodeByte = some row ∧ row.opcode = i.opcodeByte := by
  cases i <;> exact ⟨_, rfl, rfl⟩

/-- No opcode of the map has an operand count of 3 (R51). -/
theorem operandCount_of_lookup {op : Byte} {row : OpcodeRow} (h : lookupOpcode op = some row) :
    operandCount op ≤ 2 := by
  have all : ∀ row ∈ opcodeTable, operandCount row.opcode ≤ 2 := by decide
  obtain ⟨hm, rfl⟩ := lookupOpcode_some h
  exact all row hm

end Sys2Proof

namespace Sys2Proof.Machine

/-- Everything the fetch can do (R72, R74, R75). -/
theorem fetchInstr_cases (s : State) :
    (s.pc.toNat > 255 ∧ fetchInstr s = .error (.addressOutOfRange s.pc.toNat s.pc .opcodeFetch)) ∨
    (s.pc.toNat ≤ 255 ∧ lookupOpcode (s.codeByte 0) = none ∧
      fetchInstr s = .error (.unrecognizedOpcode (s.codeByte 0) s.pc)) ∨
    ∃ row, s.pc.toNat ≤ 255 ∧ lookupOpcode (s.codeByte 0) = some row ∧
      ((1 ≤ operandCount (s.codeByte 0) ∧ s.pc.toNat + 1 > 255 ∧
          fetchInstr s = .error (.addressOutOfRange (s.pc.toNat + 1) s.pc .operand1Fetch)) ∨
       (operandCount (s.codeByte 0) = 2 ∧ s.pc.toNat + 1 ≤ 255 ∧ s.pc.toNat + 2 > 255 ∧
          fetchInstr s = .error (.addressOutOfRange (s.pc.toNat + 2) s.pc .operand2Fetch)) ∨
       ((1 ≤ operandCount (s.codeByte 0) → s.pc.toNat + 1 ≤ 255) ∧
        (operandCount (s.codeByte 0) = 2 → s.pc.toNat + 2 ≤ 255) ∧
          fetchInstr s = .ok (row.build (if 1 ≤ operandCount (s.codeByte 0) then s.codeByte 1 else 0)
            (if operandCount (s.codeByte 0) = 2 then s.codeByte 2 else 0)))) := by
  by_cases hpc : s.pc.toNat > 255
  · refine .inl ⟨hpc, ?_⟩
    simp [fetchInstr, memRead_outOfRange (a := s.pc.toNat) (by omega), bind, Except.bind]
  have h0 : memRead s.pc.toNat .opcodeFetch s = .ok (s.codeByte 0) := memRead_inRange (by omega) _ _
  have b1 : (s.pc.toNat : Int) + 1 = ((s.pc.toNat + 1 : Nat) : Int) := by omega
  have b2 : (s.pc.toNat : Int) + 2 = ((s.pc.toNat + 2 : Nat) : Int) := by omega
  refine .inr ?_
  cases hl : lookupOpcode (s.codeByte 0) with
  | none => exact .inl ⟨by omega, rfl, by simp [fetchInstr, h0, hl, bind, Except.bind]⟩
  | some row =>
    refine .inr ⟨row, by omega, rfl, ?_⟩
    by_cases c1 : 1 ≤ operandCount (s.codeByte 0)
    · by_cases p1 : s.pc.toNat + 1 > 255
      · refine .inl ⟨c1, p1, ?_⟩
        have := memRead_outOfRange (a := (s.pc.toNat : Int) + 1) (by omega) .operand1Fetch s
        simp [fetchInstr, fetchOperand, h0, hl, c1, this, bind, Except.bind]
      · have e1 : memRead ((s.pc.toNat : Int) + 1) .operand1Fetch s = .ok (s.codeByte 1) := by
          rw [b1]; exact memRead_inRange (by omega) _ _
        refine .inr ?_
        by_cases c2 : operandCount (s.codeByte 0) = 2
        · by_cases p2 : s.pc.toNat + 2 > 255
          · refine .inl ⟨c2, by omega, p2, ?_⟩
            have := memRead_outOfRange (a := (s.pc.toNat : Int) + 2) (by omega) .operand2Fetch s
            simp [fetchInstr, fetchOperand, h0, hl, c2, e1, this, bind, Except.bind]
          · have e2 : memRead ((s.pc.toNat : Int) + 2) .operand2Fetch s = .ok (s.codeByte 2) := by
              rw [b2]; exact memRead_inRange (by omega) _ _
            refine .inr ⟨fun _ => by omega, fun _ => by omega, ?_⟩
            simp [fetchInstr, fetchOperand, h0, hl, c2, e1, e2, bind, Except.bind, pure, Except.pure]
        · refine .inr ⟨fun _ => by omega, fun h => absurd h c2, ?_⟩
          simp [fetchInstr, fetchOperand, h0, hl, c1, c2, e1, bind, Except.bind, pure, Except.pure]
    · have c2 : operandCount (s.codeByte 0) ≠ 2 := by omega
      refine .inr (.inr ⟨fun h => absurd h c1, fun h => absurd h c2, ?_⟩)
      simp [fetchInstr, fetchOperand, h0, hl, c1, c2, bind, Except.bind, pure, Except.pure]

/-- What a fetch that answers an instruction has read: its opcode byte at PC and its operand bytes after it, all below
address 256. -/
theorem fetchInstr_ok {s : State} {i : Instr} (h : fetchInstr s = .ok i) :
    s.codeByte 0 = i.opcodeByte ∧ s.pc.toNat + i.operandBytes.length ≤ 255 ∧
    i.operandBytes = (List.range i.operandBytes.length).map fun k => s.codeByte (k + 1) := by
  obtain ⟨-, e⟩ | ⟨-, -, e⟩ | ⟨row, hpc, hl, r⟩ := fetchInstr_cases s
  · rw [e] at h; cases h
  · rw [e] at h; cases h
  obtain ⟨-, -, e⟩ | ⟨-, -, -, e⟩ | ⟨h1, h2, e⟩ := r
  · rw [e] at h; cases h
  · rw [e] at h; cases h
  rw [e] at h
  cases h
  obtain ⟨hm, hop⟩ := lookupOpcode_some hl
  rw [← hop] at h1 h2
  simp only [← hop]
  clear hl e hop
  simp only [opcodeTable, List.cons_append, List.nil_append, List.mem_cons, List.not_mem_nil, or_false] at hm
  rcases hm with rfl | rfl | rfl | rfl | rfl | rfl | rfl | rfl | rfl | rfl | rfl | rfl | rfl | rfl | rfl | rfl |
    rfl | rfl | rfl <;>
    simp [operandCount, Instr.opcodeByte, Instr.operandBytes, List.range_succ] at h1 h2 ⊢ <;> omega

/-- Everything a step can do: it needs a running machine, and is the fetch's fault raised or the instruction run. -/
theorem step_cases {s t : State} (h : step s = .next t) :
    s.rs = .running ∧
    ((∃ f, fetchInstr s = .error f ∧ t = raise f s) ∨ (∃ i, fetchInstr s = .ok i ∧ exec i s = .next t)) := by
  unfold step at h
  split at h
  · cases h
  · cases h
  · next hr =>
    refine ⟨hr, ?_⟩
    split at h
    · next f hf => cases h; exact .inl ⟨f, hf, rfl⟩
    · next i hi => exact .inr ⟨i, hi, h⟩

theorem step_of_fetch_ok {s : State} {i : Instr} (hr : s.rs = .running) (hf : fetchInstr s = .ok i) :
    step s = exec i s := by
  simp [step, hr, hf]

theorem step_of_fetch_error {s : State} {f : FaultRecord} (hr : s.rs = .running) (hf : fetchInstr s = .error f) :
    step s = .next (raise f s) := by
  simp [step, hr, hf]

end Sys2Proof.Machine
end

