-- ==== Sys2Proof/Laws/PerInstr.lean ====
section
/-! SUPPORT. A fact of every instruction as syntax, one lemma per constructor. -/

namespace Sys2Proof.Laws.EncodedLength

/-- The length of the encoding is one more than bits 7:6 of its first byte (R51). -/
def Statement (i : Instr) : Prop := (encode i).length = 1 + operandCount i.opcodeByte

/-- It holds of every instruction. -/
theorem all (i : Instr) : Statement i := by
  cases i <;> simp [Statement, encode, Instr.operandBytes, Instr.opcodeByte, operandCount]

theorem hlt : Statement (.hlt) := all _

theorem ldi (ra imm : Byte) : Statement (.ldi ra imm) := all _

theorem prn (ra : Byte) : Statement (.prn ra) := all _

theorem add (ra rb : Byte) : Statement (.add ra rb) := all _

theorem mul (ra rb : Byte) : Statement (.mul ra rb) := all _

theorem mod (ra rb : Byte) : Statement (.mod ra rb) := all _

theorem or (ra rb : Byte) : Statement (.or ra rb) := all _

theorem xor (ra rb : Byte) : Statement (.xor ra rb) := all _

theorem not (ra : Byte) : Statement (.not ra) := all _

theorem shl (ra rb : Byte) : Statement (.shl ra rb) := all _

theorem shr (ra rb : Byte) : Statement (.shr ra rb) := all _

theorem push (ra : Byte) : Statement (.push ra) := all _

theorem pop (ra : Byte) : Statement (.pop ra) := all _

theorem call (ra : Byte) : Statement (.call ra) := all _

theorem ret : Statement (.ret) := all _

theorem cmp (ra rb : Byte) : Statement (.cmp ra rb) := all _

theorem jmp (ra : Byte) : Statement (.jmp ra) := all _

theorem jeq (ra : Byte) : Statement (.jeq ra) := all _

theorem jne (ra : Byte) : Statement (.jne ra) := all _

end Sys2Proof.Laws.EncodedLength
end

