-- ==== Sys2Proof/Tests/Slice0.lean ====
section
/-! SUPPORT. Small tests: the well-formedness check, decoding, one step per instruction on the vectors of
spec/95_test_vectors.md, and for every statement that has hypotheses a state and operands that meet them. -/

namespace Sys2Proof.Tests
open Sys2Proof Sys2Proof.Machine

/-! ### Helpers -/

/-- A running state with `code` at `pc`, these registers and these other bytes; `FL` as given, the rest as at reset. -/
def at_ (pc : Nat) (code : List Byte) (regs : List (RegIdx × Byte)) (fl : Byte) (data : List (Nat × Byte)) : State :=
  let s := (State.resetWith fl).setMem (storeBytes pc code (data.foldl (fun m c => m.write c.1 c.2) []))
  (regs.foldl (fun s r => s.setReg r.1 r.2) s).setPc (BitVec.ofNat 9 pc)

/-- The outcome is a next state with the property. -/
def isNext (o : Host.Outcome State Fault Refusal) (p : State → Bool) : Bool :=
  match o with
  | .next t => p t
  | .fault _ => false
  | .refused _ => false

/-- The step of `s` raises `f` and changes nothing else (R155). -/
def raises (s : State) (f : FaultRecord) : Bool := isNext (step s) fun t => decide (t = raise f s)

/-! ### The well-formedness check refuses -/

theorem test_wellFormed_refuses_bad_ra :
    ([.ldi 8 0, .prn 8, .add 8 0, .mul 8 0, .mod 8 0, .or 8 0, .xor 8 0, .not 8, .shl 8 0, .shr 8 0, .push 8, .pop 8,
      .call 8, .cmp 8 0, .jmp 8, .jeq 255, .jne 8] : List Instr).all (fun i => !i.wellFormed) = true := by decide

theorem test_wellFormed_refuses_bad_rb :
    ([.add 0 8, .mul 0 8, .mod 0 8, .or 0 8, .xor 0 8, .shl 0 8, .shr 0 255, .cmp 0 8] : List Instr).all
      (fun i => !i.wellFormed) = true := by decide

theorem test_wellFormed_accepts :
    ([.hlt, .ret, .ldi 7 255, .prn 7, .add 7 7, .jne 0] : List Instr).all (fun i => i.wellFormed) = true := by decide

/-! ### Decoding: one word per row of R56, written out from its bits -/

theorem test_decode_F0 :
    decode [0b00000001, 0xFF] = .ok (.hlt, [0xFF]) ∧ decode [0b00010001] = .ok (.ret, []) := by decide

theorem test_decode_F1R :
    decode [0b01000111, 0b00000011] = .ok (.prn 3, []) ∧ decode [0b01101001, 0b00000111] = .ok (.not 7, []) ∧
    decode [0b01000101, 0b00000001] = .ok (.push 1, []) ∧ decode [0b01000110, 0b00000010] = .ok (.pop 2, []) ∧
    decode [0b01010000, 0b00000100] = .ok (.call 4, []) ∧ decode [0b01010100, 0b00000101] = .ok (.jmp 5, []) ∧
    decode [0b01010101, 0b00000110] = .ok (.jeq 6, []) ∧ decode [0b01010110, 0b10000001] = .ok (.jne 129, []) := by
  decide

theorem test_decode_F2 :
    decode [0b10000010, 0b00000001, 0b10000000] = .ok (.ldi 1 128, []) ∧
    decode [0b10100000, 0b00000001, 0b00000010] = .ok (.add 1 2, []) ∧
    decode [0b10100010, 0b00000010, 0b00000001] = .ok (.mul 2 1, []) ∧
    decode [0b10100100, 0b00000011, 0b00000100] = .ok (.mod 3 4, []) ∧
    decode [0b10101010, 0b00000101, 0b00000110] = .ok (.or 5 6, []) ∧
    decode [0b10101011, 0b00000110, 0b00000101] = .ok (.xor 6 5, []) ∧
    decode [0b10101100, 0b00000111, 0b00000000] = .ok (.shl 7 0, []) ∧
    decode [0b10101101, 0b00000000, 0b00000111] = .ok (.shr 0 7, []) ∧
    decode [0b10100111, 0b00000010, 0b00000011] = .ok (.cmp 2 3, []) := by decide

/-- Vectors of 95_test_vectors.md section 2.1: neighbours of recognized opcodes. -/
theorem test_decode_rejects :
    ([0x00, 0x02, 0x10, 0x44, 0x48, 0x51, 0x57, 0x68, 0x83, 0xA1, 0xA3, 0xA5, 0xA6, 0xA8, 0xA9, 0xAE, 0xC0, 0xFF] :
      List Byte).all (fun op => decide (decode [op, 0, 0] = .error (.unrecognizedOpcode op))) = true := by decide

/-- The table's numbering: the first byte holds bits 7..0 (spec/opcode_table.json). -/
theorem test_decodeTableWord :
    decodeTableWord 24 0x050482 = some (.ldi 4 5) ∧ decodeTableWord 8 0x47 = some (.prn 0) ∧
    decodeTableWord 8 0xA8 = none := by decide

theorem test_withFetchWord :
    isNext (step (State.reset.withFetchWord 24 0x050482)) (fun t => decide (t.reg 4 = 5 ∧ t.pc = 3)) = true := by
  decide

/-! ### One step per instruction (95_test_vectors.md sections 1 and 2; the vector's name stands in the theorem's) -/

theorem test_hlt_A2 :
    isNext (step (at_ 255 [0x01] [] 0 [])) (fun t => decide (t.rs = .halted ∧ t.pc = 255)) = true := by decide

theorem test_ldi_A4 :
    isNext (step (at_ 0 [0x82, 7, 0x80] [] 0 [])) (fun t => decide (t.reg 7 = 0x80 ∧ t.pc = 3)) = true := by decide

theorem test_ldi_A9 :
    isNext (step (at_ 253 [0x82, 0, 7] [] 0 [])) (fun t => decide (t.reg 0 = 7 ∧ t.pc = 256)) = true := by decide

theorem test_prn_A8 :
    isNext (step (at_ 10 [0x47, 4] [(4, 255)] 0 [])) (fun t => decide (t.out = [255] ∧ t.pc = 12)) = true := by decide

theorem test_add_S2 :
    isNext (step (at_ 0 [0xA0, 0, 1] [(0, 200), (1, 100)] 0 []))
      (fun t => decide (t.reg 0 = 44 ∧ t.reg 1 = 100)) = true := by decide

theorem test_add_same :
    isNext (step (at_ 0 [0xA0, 3, 3] [(3, 128)] 0 [])) (fun t => decide (t.reg 3 = 0)) = true := by decide

theorem test_mul_255_255 :
    isNext (step (at_ 0 [0xA2, 0, 1] [(0, 255), (1, 255)] 0 [])) (fun t => decide (t.reg 0 = 1)) = true := by decide

theorem test_mod_255_128 :
    isNext (step (at_ 0 [0xA4, 0, 1] [(0, 255), (1, 128)] 0 [])) (fun t => decide (t.reg 0 = 127)) = true := by decide

theorem test_mod_by_zero :
    raises (at_ 3 [0xA4, 0, 1] [(0, 33)] 0 []) (.divisionByZero 3) = true := by decide

theorem test_or_CC_AA :
    isNext (step (at_ 0 [0xAA, 0, 1] [(0, 0xCC), (1, 0xAA)] 0 [])) (fun t => decide (t.reg 0 = 0xEE)) = true := by
  decide

theorem test_xor_CC_AA :
    isNext (step (at_ 0 [0xAB, 0, 1] [(0, 0xCC), (1, 0xAA)] 0 [])) (fun t => decide (t.reg 0 = 0x66)) = true := by
  decide

theorem test_xor_same :
    isNext (step (at_ 0 [0xAB, 0, 0] [(0, 0x5A)] 0 [])) (fun t => decide (t.reg 0 = 0)) = true := by decide

theorem test_not_62 :
    isNext (step (at_ 24 [0x69, 0] [(0, 62)] 0 [])) (fun t => decide (t.reg 0 = 193 ∧ t.pc = 26)) = true := by decide

theorem test_shl_177_2 :
    isNext (step (at_ 0 [0xAC, 0, 1] [(0, 177), (1, 2)] 0 [])) (fun t => decide (t.reg 0 = 196)) = true := by decide

theorem test_shl_by_width :
    isNext (step (at_ 0 [0xAC, 0, 1] [(0, 1), (1, 8)] 0 [])) (fun t => decide (t.reg 0 = 0)) = true := by decide

theorem test_shr_177_2 :
    isNext (step (at_ 0 [0xAD, 0, 1] [(0, 177), (1, 2)] 0 [])) (fun t => decide (t.reg 0 = 44)) = true := by decide

theorem test_shr_255_200 :
    isNext (step (at_ 0 [0xAD, 0, 1] [(0, 255), (1, 200)] 0 [])) (fun t => decide (t.reg 0 = 0)) = true := by decide

theorem test_push_K4 :
    isNext (step (at_ 0 [0x45, 0] [(7, 1), (0, 0x99)] 0 []))
      (fun t => decide (t.mem.read 0 = 0x99 ∧ t.reg 7 = 0)) = true := by decide

theorem test_push_K9 :
    isNext (step (at_ 0 [0x45, 7] [] 0 []))
      (fun t => decide (t.mem.read 0xF3 = 0xF3 ∧ t.reg 7 = 0xF3)) = true := by decide

theorem test_pop_K2 :
    isNext (step (at_ 12 [0x46, 2] [(7, 0xF3)] 0 [(0xF3, 21)]))
      (fun t => decide (t.reg 2 = 21 ∧ t.reg 7 = 0xF4)) = true := by decide

theorem test_pop_K10 :
    isNext (step (at_ 0 [0x46, 7] [] 0 [(0xF4, 0x20)])) (fun t => decide (t.reg 7 = 0x21 ∧ t.pc = 2)) = true := by
  decide

theorem test_call_K8 :
    isNext (step (at_ 8 [0x50, 1] [(1, 17), (7, 0xF3)] 0 []))
      (fun t => decide (t.mem.read 0xF2 = 10 ∧ t.pc = 17)) = true := by decide

theorem test_call_K12 :
    isNext (step (at_ 0 [0x50, 7] [] 0 [])) (fun t => decide (t.mem.read 0xF3 = 2 ∧ t.pc = 0xF3)) = true := by decide

theorem test_ret_K18 :
    isNext (step (at_ 255 [0x11] [] 0 [(0xF4, 9)])) (fun t => decide (t.pc = 9 ∧ t.reg 7 = 0xF5)) = true := by decide

theorem test_cmp_unsigned :
    isNext (step (at_ 0 [0xA7, 0, 1] [(0, 255), (1, 1)] 0 [])) (fun t => decide (t.fl = 0x02)) = true := by decide

theorem test_cmp_clears_upper_bits :
    isNext (step (at_ 0 [0xA7, 0, 1] [(0, 1), (1, 2)] 0xFF [])) (fun t => decide (t.fl = 0x04 ∧ t.pc = 3)) = true := by
  decide

theorem test_jmp_J2 :
    isNext (step (at_ 3 [0x54, 0] [(0, 3)] 0 [])) (fun t => decide (t.pc = 3)) = true := by decide

theorem test_jeq_J10 :
    isNext (step (at_ 0 [0x55, 1] [(1, 9)] 0xFE [])) (fun t => decide (t.pc = 2)) = true := by decide

theorem test_jeq_J11 :
    isNext (step (at_ 0 [0x55, 1] [(1, 9)] 0xFF [])) (fun t => decide (t.pc = 9)) = true := by decide

theorem test_jne_J7 :
    isNext (step (at_ 20 [0x56, 3] [(3, 12)] 0x04 [])) (fun t => decide (t.pc = 12)) = true := by decide

theorem test_jne_J8 :
    isNext (step (at_ 20 [0x56, 3] [(3, 12)] 0x01 [])) (fun t => decide (t.pc = 22)) = true := by decide

/-! ### Faults (vectors A5, A10, A11, K11, K14, K15, K17, J9, S3 and section 2.3) -/

theorem test_faults_of_the_fetch :
    raises (at_ 254 [0x82, 0] [] 0 []) (.addressOutOfRange 256 254 .operand2Fetch) = true ∧
    raises (at_ 255 [0x47] [] 0 []) (.addressOutOfRange 256 255 .operand1Fetch) = true ∧
    raises (at_ 256 [] [] 0 []) (.addressOutOfRange 256 256 .opcodeFetch) = true ∧
    raises (at_ 255 [0xFF] [] 0 []) (.unrecognizedOpcode 0xFF 255) = true := by decide

theorem test_faults_of_register_operands :
    raises (at_ 0 [0x82, 8, 1] [] 0 []) (.addressOutOfRange 8 0 .regIndexA) = true ∧
    raises (at_ 0 [0xA4, 9, 0] [] 0 []) (.addressOutOfRange 9 0 .regIndexA) = true ∧
    raises (at_ 0 [0xA4, 0, 9] [] 0 []) (.addressOutOfRange 9 0 .regIndexB) = true ∧
    raises (at_ 0 [0x55, 8] [] 4 []) (.addressOutOfRange 8 0 .regIndexA) = true := by decide

theorem test_faults_of_the_stack :
    raises (at_ 0 [0x46, 7] [] 0 [(0xF4, 0xFF)]) (.addressOutOfRange 256 0 .spAbove255) = true ∧
    raises (at_ 254 [0x50, 1] [] 0 []) (.addressOutOfRange 256 254 .returnAddress) = true ∧
    raises (at_ 254 [0x50, 1] [(7, 0)] 0 []) (.addressOutOfRange (-1) 254 .spBelowZero) = true ∧
    raises (at_ 0 [0x11] [(7, 255)] 0 []) (.addressOutOfRange 256 0 .spAbove255) = true := by decide

/-! ### Witnesses: for every statement with hypotheses, a state and operands that meet them, clause by clause -/

theorem witness_LaunchCopiesTheImage :
    (∃ image : List Byte, image.length ≤ 256 ∧ image.length = 256) ∧ (∃ image : List Byte, image.length = 257) ∧
    ∃ image : List Byte, image = [] :=
  ⟨⟨List.replicate 256 1, Nat.le_of_eq List.length_replicate, List.length_replicate⟩,
    ⟨List.replicate 257 1, List.length_replicate⟩, [], rfl⟩

theorem witness_ExitStatusTellsTheEnd :
    State.reset.rs = .running ∧ (State.reset.setRs .halted).rs = .halted ∧
    (raise (.divisionByZero 0) State.reset).rs = .faulted ∧
    (raise (.divisionByZero 0) State.reset).fault = some (.divisionByZero 0) := ⟨rfl, rfl, rfl, rfl⟩

theorem witness_HltHaltsInPlace :
    ((at_ 255 [0x01] [] 0 []).rs = .running ∧ (at_ 255 [0x01] [] 0 []).pc.toNat ≤ 255 ∧
      (at_ 255 [0x01] [] 0 []).codeByte 0 = 0x01) ∧ ∃ t, exec .hlt State.reset = .next t :=
  ⟨by decide, _, rfl⟩

theorem witness_LdiLoadsTheImmediate : ∃ t, exec (.ldi (regByte 7) 255) State.reset = .next t := ⟨_, rfl⟩

theorem witness_ModWritesTheRemainder :
    (at_ 0 [] [(1, 1)] 0 []).reg 1 ≠ 0 ∧ State.reset.reg 1 = 0 := by decide

theorem witness_ShlShiftsByTheWholeByte : ((at_ 0 [] [(1, 8)] 0 []).reg 1).toNat ≥ 8 := by decide

theorem witness_ShrShiftsLogically : ((at_ 0 [] [(1, 8)] 0 []).reg 1).toNat ≥ 8 := by decide

theorem witness_PushDecrementsThenStores :
    ((at_ 0 [] [(7, 1)] 0 []).sp ≠ 0 ∧ (at_ 0 [] [(7, 1)] 0 []).mem.wf = true) ∧
    (at_ 0 [] [(7, 0)] 0 []).sp = 0 := by decide

theorem witness_PopLoadsThenIncrements :
    ((3 : RegIdx) ≠ 7 ∧ (at_ 0 [] [(7, 254)] 0 []).sp ≠ 255) ∧
    (let s := at_ 0 [] [] 0 [(0xF4, 254)]; s.mem.read s.sp.toNat ≠ 255) ∧
    (at_ 0 [] [(7, 255)] 0 []).sp = 255 ∧
    (let s := at_ 0 [] [] 0 [(0xF4, 255)]; s.mem.read s.sp.toNat = 255) := by decide

theorem witness_CallPushesTheReturnAddress :
    (let s := at_ 253 [] [(7, 1)] 0 []; s.sp ≠ 0 ∧ s.pc.toNat ≤ 253 ∧ s.mem.wf = true) ∧
    (at_ 253 [] [(7, 0)] 0 []).sp = 0 ∧
    (let s := at_ 254 [] [(7, 1)] 0 []; s.sp ≠ 0 ∧ s.pc.toNat = 254) := by decide

theorem witness_RetJumpsToThePoppedByte :
    (at_ 0 [] [(7, 254)] 0 []).sp ≠ 255 ∧ (at_ 0 [] [(7, 255)] 0 []).sp = 255 := by decide

theorem witness_PushThenPopCopiesAndRestoresSp :
    (let s := at_ 0 [] [(7, 1), (0, 254), (1, 255)] 0 [];
      s.mem.wf = true ∧ s.sp ≠ 0 ∧ s.reg 0 ≠ 255 ∧ s.reg 1 = 255) ∧
    (0 : RegIdx) ≠ 7 ∧ (1 : RegIdx) ≠ 7 ∧ (6 : RegIdx) ≠ 7 := by decide

theorem witness_CallThenRetReturns :
    (let s := at_ 253 [] [(7, 1)] 0 []; s.mem.wf = true ∧ s.sp ≠ 0 ∧ s.pc.toNat ≤ 253) ∧
    ∃ t u : State, u.sp = t.sp ∧ u.mem.read t.sp.toNat = t.mem.read t.sp.toNat :=
  ⟨by decide, State.reset, State.reset, rfl, rfl⟩

theorem witness_JmpGoesToTheRegister :
    (let s := at_ 3 [] [(0, 3)] 0 []; s.pc.toNat = (s.reg 0).toNat) := by decide

theorem witness_JeqJumpsWhenEqual :
    (at_ 0 [] [] 0x01 []).fl.getLsbD 0 = true ∧ (at_ 0 [] [] 0xFE []).fl.getLsbD 0 = false ∧
    (8 : Byte).toNat > 7 := by decide

theorem witness_JneJumpsWhenNotEqual :
    (at_ 0 [] [] 0xFE []).fl.getLsbD 0 = false ∧ (at_ 0 [] [] 0x01 []).fl.getLsbD 0 = true := by decide

theorem witness_RegisterWritersFrame :
    (∃ t, exec (.ldi 3 9) State.reset = .next t) ∧ (∃ t, exec (.add 3 4) State.reset = .next t) ∧
    (∃ t, exec (.mul 3 4) State.reset = .next t) ∧ (∃ t, exec (.mod 3 7) State.reset = .next t) ∧
    (∃ t, exec (.or 3 4) State.reset = .next t) ∧ (∃ t, exec (.xor 3 4) State.reset = .next t) ∧
    (∃ t, exec (.not 3) State.reset = .next t) ∧ (∃ t, exec (.shl 3 4) State.reset = .next t) ∧
    (∃ t, exec (.shr 3 4) State.reset = .next t) ∧ (2 : RegIdx).val ≠ (3 : Byte).toNat :=
  ⟨⟨_, rfl⟩, ⟨_, rfl⟩, ⟨_, rfl⟩, ⟨_, rfl⟩, ⟨_, rfl⟩, ⟨_, rfl⟩, ⟨_, rfl⟩, ⟨_, rfl⟩, ⟨_, rfl⟩, by decide⟩

theorem witness_CmpFrame : ∃ t, exec (.cmp 0 7) State.reset = .next t := ⟨_, rfl⟩

theorem witness_PrnFrame : ∃ t, exec (.prn 7) State.reset = .next t := ⟨_, rfl⟩

theorem witness_JumpFrame :
    (∃ t, exec (.jmp 7) State.reset = .next t) ∧ (∃ t, exec (.jeq 7) (at_ 0 [] [] 1 []) = .next t) ∧
    ∃ t, exec (.jne 7) (at_ 0 [] [] 1 []) = .next t :=
  ⟨⟨_, rfl⟩, ⟨_, rfl⟩, ⟨_, rfl⟩⟩

theorem witness_PushCallFrame :
    (∃ t, exec (.push 0) State.reset = .next t) ∧ (∃ t, exec (.call 0) State.reset = .next t) ∧
    (predecSp State.reset = .ok 0xF3 ∧ 0xF4 ≠ (0xF3 : Byte).toNat) ∧
    (∃ t, exec (.push 0) (at_ 0 [] [(7, 0)] 0 []) = .next t) ∧
    predecSp (at_ 0 [] [(7, 0)] 0 []) = .error (.addressOutOfRange (-1) 0 .spBelowZero) :=
  ⟨⟨_, rfl⟩, ⟨_, rfl⟩, ⟨rfl, by decide⟩, ⟨_, rfl⟩, rfl⟩

theorem witness_PopRetFrame :
    (∃ t, exec (.pop 0) State.reset = .next t) ∧ (∃ t, exec .ret State.reset = .next t) ∧
    (1 : RegIdx) ≠ 7 ∧ (1 : RegIdx).val ≠ (0 : Byte).toNat :=
  ⟨⟨_, rfl⟩, ⟨_, rfl⟩, by decide⟩

theorem witness_DecodedBytesAreTheEncoding : decode [0x82, 255, 255, 1] = .ok (.ldi 255 255, [1]) := rfl

theorem witness_TopBitsGiveLengthAndAdvance :
    decode (0x82 :: [0, 8, 1]) = .ok (.ldi 0 8, [1]) ∧ (0xC0 : Byte).toNat / 64 = 3 ∧
    (takesDefaultAdvance (.jeq 0) (at_ 254 [] [] 0 []) = true ∧ (at_ 254 [] [] 0 []).rs = .running ∧
      isNext (exec (.jeq 0) (at_ 254 [] [] 0 [])) (fun t => decide (t.rs = .running)) = true) := by decide

theorem witness_UnrecognizedOpcodesFault :
    (0xC0 : Byte).toNat ≥ 0xC0 ∧
    (let s := at_ 255 [0xFF] [] 0 []; s.rs = .running ∧ s.pc.toNat ≤ 255 ∧ (lookupOpcode (s.codeByte 0)).isNone = true) :=
  by decide

theorem witness_StepRunsTheDecodedInstruction :
    (let s := at_ 254 [0x45, 9] [] 0 []; s.rs = .running ∧ decode s.codeBytes = .ok (.push 9, [])) := by decide

theorem witness_StepFaultsOnUndecodableBytes :
    ((at_ 256 [] [] 0 []).rs = .running ∧ (at_ 256 [] [] 0 []).pc.toNat ≤ 256) ∧
    decode (at_ 256 [] [] 0 []).codeBytes = .error .noOpcode ∧
    decode (at_ 255 [0xFF] [] 0 []).codeBytes = .error (.unrecognizedOpcode 0xFF) ∧
    decode (at_ 255 [0x82] [] 0 []).codeBytes = .error .noOperand1 ∧
    decode (at_ 254 [0x82, 0] [] 0 []).codeBytes = .error .noOperand2 := by decide

theorem witness_BadRegisterOperandRaises :
    (Instr.prn 8).wellFormed = false ∧ (Instr.add 7 8).wellFormed = false ∧ (Instr.ldi 8 0).wellFormed = false := by
  decide

/-- Each cause a to h of R153 is met by some running step: the hypotheses of the statements on faulting steps. -/
theorem witness_OutOfRangeValuesAreTheTabledOnes :
    (∃ t, step (at_ 256 [] [] 0 []) = .next t ∧ t.fault = some (.addressOutOfRange 256 256 .opcodeFetch)) ∧
    (∃ t, step (at_ 255 [0x47] [] 0 []) = .next t ∧ t.fault = some (.addressOutOfRange 256 255 .operand1Fetch)) ∧
    (∃ t, step (at_ 254 [0xA0, 0] [] 0 []) = .next t ∧ t.fault = some (.addressOutOfRange 256 254 .operand2Fetch)) ∧
    (∃ t, step (at_ 0 [0x47, 8] [] 0 []) = .next t ∧ t.fault = some (.addressOutOfRange 8 0 .regIndexA)) ∧
    (∃ t, step (at_ 0 [0xA0, 0, 255] [] 0 []) = .next t ∧ t.fault = some (.addressOutOfRange 255 0 .regIndexB)) ∧
    (∃ t, step (at_ 0 [0x45, 0] [(7, 0)] 0 []) = .next t ∧ t.fault = some (.addressOutOfRange (-1) 0 .spBelowZero)) ∧
    (∃ t, step (at_ 0 [0x11] [(7, 255)] 0 []) = .next t ∧ t.fault = some (.addressOutOfRange 256 0 .spAbove255)) ∧
    (∃ t, step (at_ 254 [0x50, 0] [] 0 []) = .next t ∧ t.fault = some (.addressOutOfRange 256 254 .returnAddress)) :=
  ⟨⟨_, rfl, rfl⟩, ⟨_, rfl, rfl⟩, ⟨_, rfl, rfl⟩, ⟨_, rfl, rfl⟩, ⟨_, rfl, rfl⟩, ⟨_, rfl, rfl⟩, ⟨_, rfl, rfl⟩,
    ⟨_, rfl, rfl⟩⟩

theorem witness_FaultingStepChangesNothingElse :
    ∃ t, step State.reset = .next t ∧ t.rs = .faulted := ⟨_, rfl, rfl⟩

theorem witness_StepReportsTheFirstFailingTest :
    (isNext (step (at_ 0 [0x01] [] 0 [])) (fun _ => true) = true ∧ firstFault (at_ 0 [0x01] [] 0 []) = none) ∧
    (isNext (step (at_ 255 [0xFF] [] 0 [])) (fun _ => true) = true ∧
      firstFault (at_ 255 [0xFF] [] 0 []) = some (.unrecognizedOpcode 0xFF 255)) := by decide

theorem witness_PcAfterEveryInstruction :
    (∃ t, step State.reset = .next t ∧ t.rs = .faulted) ∧
    ∃ t, step (at_ 253 [0xA0, 0, 0] [] 0 []) = .next t ∧ t.rs = .running := ⟨⟨_, rfl, rfl⟩, _, rfl, rfl⟩

theorem witness_PcNeverWraps :
    ((at_ 253 [0xA0, 0, 0] [] 0 []).pc.toNat ≤ 256 ∧
      (∃ t, step (at_ 253 [0xA0, 0, 0] [] 0 []) = .next t ∧ t.rs = .running) ∧
      (at_ 253 [0xA0, 0, 0] [] 0 []).codeByte 0 ∉ ([0x50, 0x11, 0x54, 0x55, 0x56] : List Byte)) ∧
    (∃ t, step (at_ 254 [0x55, 0] [] 0xFE []) = .next t ∧ t.rs = .running) ∧
    (at_ 254 [0x55, 0] [] 0xFE []).fl.getLsbD 0 = false ∧
    (∃ t, step (at_ 254 [0x56, 0] [] 0x01 []) = .next t ∧ t.rs = .running) ∧
    (at_ 254 [0x56, 0] [] 0x01 []).fl.getLsbD 0 = true :=
  ⟨⟨by decide, ⟨_, rfl, rfl⟩, by decide⟩, ⟨_, rfl, rfl⟩, by decide, ⟨_, rfl, rfl⟩, by decide⟩

theorem witness_OnlyCmpWritesAndOnlyJumpsReadFlags :
    ((∃ t, step (at_ 0 [0x54, 0] [] 0 []) = .next t) ∧ (at_ 0 [0x54, 0] [] 0 []).codeByte 0 ≠ 0xA7) ∧
    ((∃ t, step (at_ 0 [0xA7, 0, 1] [] 0 []) = .next t ∧ t.rs ≠ .faulted) ∧
      (at_ 0 [0xA7, 0, 1] [] 0 []).codeByte 0 = 0xA7) ∧
    ((∃ t, step (at_ 0 [0xA7, 0, 8] [] 0 []) = .next t ∧ ¬ t.rs ≠ .faulted) ∧
      (at_ 0 [0xA7, 0, 8] [] 0 []).codeByte 0 = 0xA7) ∧
    ((∃ t, step (at_ 0 [0x55, 0] [] 1 []) = .next t) ∧
      (0xFF : Byte).getLsbD 0 = (at_ 0 [0x55, 0] [] 1 []).fl.getLsbD 0) :=
  ⟨⟨⟨_, rfl⟩, by decide⟩, ⟨⟨_, rfl, by decide⟩, by decide⟩, ⟨⟨_, rfl, by decide⟩, by decide⟩, ⟨_, rfl⟩, by decide⟩

theorem witness_OnlyPrnEmits : ∃ t, step (at_ 0 [0x47, 7] [] 0 []) = .next t ∧ t.out = [0xF4] := ⟨_, rfl, rfl⟩

theorem witness_RunStateTransitions :
    ∃ t, step (at_ 255 [0x01] [] 0 []) = .next t ∧ (at_ 255 [0x01] [] 0 []).fault = none ∧
      (at_ 255 [0x01] [] 0 []).pc.toNat ≤ 255 := ⟨_, rfl, rfl, by decide⟩

theorem witness_MemoryAccessesAreTheTabledOnes :
    (∃ t, step (at_ 0 [0x45, 0] [(0, 9)] 0 []) = .next t ∧
      t.mem.read 0xF3 ≠ (at_ 0 [0x45, 0] [(0, 9)] 0 []).mem.read 0xF3 ∧
      storesAt (at_ 0 [0x45, 0] [(0, 9)] 0 []) t 0xF3 ∧ ¬ storesAt (at_ 0 [0x45, 0] [(0, 9)] 0 []) t 255) ∧
    (at_ 0 [0x45, 0] [(0, 9)] 0 []).mem.wf = true ∧ 255 ∉ readAddresses (at_ 0 [0x45, 0] [(0, 9)] 0 []) ∧
    0xF3 ∉ readAddresses (at_ 0 [0x45, 0] [(0, 9)] 0 []) ∧
    (∃ t, step (at_ 0 [0xFF, 0, 0] [] 0 []) = .next t) ∧ 1 ∉ readAddresses (at_ 0 [0xFF, 0, 0] [] 0 []) :=
  ⟨⟨_, rfl, by decide, by unfold storesAt; decide, by unfold storesAt; decide⟩, by decide, by decide, by decide,
    ⟨_, rfl⟩, by decide⟩

theorem witness_StoredByteIsFetchedNext :
    (let s := at_ 252 [0x45, 0] [(7, 255)] 0 [];
      s.rs = .running ∧ s.mem.wf = true ∧ s.codeByte 1 = regByte 0 ∧ s.codeByte 0 = 0x45 ∧
      s.sp.toNat = s.pc.toNat + 3) ∧
    (let s := at_ 253 [0x50, 1] [(7, 1), (1, 0)] 0 [];
      s.rs = .running ∧ s.mem.wf = true ∧ s.codeByte 1 = regByte 1 ∧ s.codeByte 0 = 0x50 ∧ s.pc.toNat ≤ 253 ∧
      s.sp ≠ 0 ∧ s.reg 1 = s.sp - 1) := by decide

/-- The outcomes that `StepFetches` tells apart all occur: the byte decodes, is unrecognized, or lacks an operand byte. -/
theorem witness_StepFetches :
    decode (0x01 :: (at_ 254 [0, 0] [] 0 []).codeBytes.tail) = .ok (.hlt, [0]) ∧
    decode (0xFF :: (at_ 254 [0, 0] [] 0 []).codeBytes.tail) = .error (.unrecognizedOpcode 0xFF) ∧
    decode (0x47 :: (at_ 255 [0] [] 0 []).codeBytes.tail) = .error .noOperand1 ∧
    decode (0xA0 :: (at_ 254 [0, 0] [] 0 []).codeBytes.tail) = .error .noOperand2 := by decide

theorem witness_RegistersAreUsedOnlyWhereNamed :
    (∃ t, step (at_ 0 [0xA0, 0, 1] [] 0 []) = .next t) ∧ ¬ (at_ 0 [0xA0, 0, 1] [] 0 []).namesReg 7 ∧
    ¬ (at_ 0 [0xA0, 0, 1] [] 0 []).atStackInstr :=
  ⟨⟨_, rfl⟩, by unfold State.namesReg; decide, by unfold State.atStackInstr; decide⟩

theorem witness_MemoryPrimitivesCheckBounds :
    State.reset.mem.wf = true ∧ ((255 : Int) = (255 : Nat) ∧ 255 ≤ 255) ∧ ((-1 : Int) < 0 ∨ (-1 : Int) > 255) ∧
    ((256 : Int) < 0 ∨ (256 : Int) > 255) := by decide

theorem witness_CanonicalMemoriesAreExtensional :
    Memory.wf [(255, 1)] = true ∧ ∀ a < 256, Memory.read [(255, 1)] a = Memory.read [(255, 1)] a :=
  ⟨by decide, fun _ _ => rfl⟩

theorem witness_LaunchMeetsTheInvariant : ∃ s, launchWith 0xFF [0x82, 0, 8, 0x01] = .next s := ⟨_, rfl⟩

theorem witness_StepKeepsTheInvariant :
    (at_ 0 [0x45, 0] [(0, 9)] 0 []).Inv ∧ ∃ t, step (at_ 0 [0x45, 0] [(0, 9)] 0 []) = .next t :=
  ⟨⟨by decide, by decide, fun _ => rfl, fun h => absurd h (by decide)⟩, _, rfl⟩

end Sys2Proof.Tests
end

/-! PROOFS. The Flags byte (spec/10_state.md R18): a handler that does not look at `FL` does the same under every `FL`, and
so does every step around it; CMP and the two conditional jumps are the exceptions. -/

namespace Sys2Proof.Machine

/-! ### Handlers that do not look at FL -/

/-- `h` neither reads nor writes `FL`: putting a byte there before `h` is putting it there after, and a fault raised is
the same. -/
def Handler.IgnoresFl (h : Handler) : Prop :=
  ∀ (s : State) (f : Byte), h (s.setFl f) = (h s).map fun r => (r.1.setFl f, r.2)

/-- A test or read whose answer does not depend on `FL`, then a handler that does not look at it. -/
theorem ignoresFl_bind {α : Type} {x : State → Except FaultRecord α} {k : α → Handler}
    (hx : ∀ (s : State) (f : Byte), x (s.setFl f) = x s) (hk : ∀ a, (k a).IgnoresFl) :
    Handler.IgnoresFl fun s => x s >>= fun a => k a s := by
  intro s f
  simp only [hx]
  cases x s with
  | error e => rfl
  | ok a => exact hk a s f

/-- A test that raises the same fault under every `FL`, or else a handler that does not look at it. -/
theorem ignoresFl_ite {p : State → Prop} [DecidablePred p] {fault : State → FaultRecord} {h : Handler}
    (hp : ∀ (s : State) (f : Byte), p (s.setFl f) ↔ p s)
    (hf : ∀ (s : State) (f : Byte), fault (s.setFl f) = fault s) (hh : h.IgnoresFl) :
    Handler.IgnoresFl fun s => if p s then .error (fault s) else h s := by
  intro s f
  by_cases c : p s
  · simp only [if_pos c, if_pos ((hp s f).mpr c), hf]; rfl
  · simp only [if_neg c, if_neg (mt (hp s f).mp c)]; exact hh s f

theorem withReg_ignoresFl (ra : Byte) {h : RegIdx → Handler} (hh : ∀ a, (h a).IgnoresFl) :
    (withReg ra h).IgnoresFl :=
  ignoresFl_bind (fun _ _ => rfl) hh

theorem withRegs_ignoresFl (ra rb : Byte) {h : RegIdx → RegIdx → Handler} (hh : ∀ a b, (h a b).IgnoresFl) :
    (withRegs ra rb h).IgnoresFl :=
  ignoresFl_bind (fun _ _ => rfl) fun a => ignoresFl_bind (fun _ _ => rfl) (hh a)

theorem withRegImm_ignoresFl (ra imm : Byte) {h : RegIdx → Byte → Handler} (hh : ∀ a, (h a imm).IgnoresFl) :
    (withRegImm ra imm h).IgnoresFl :=
  ignoresFl_bind (fun _ _ => rfl) hh

theorem binaryOp_ignoresFl (op : Byte → Byte → Byte) (a b : RegIdx) : (binaryOp op a b).IgnoresFl :=
  fun _ _ => rfl

theorem modHandler_ignoresFl (a b : RegIdx) : (modHandler a b).IgnoresFl :=
  ignoresFl_ite (fun _ _ => Iff.rfl) (fun _ _ => rfl) (binaryOp_ignoresFl aluMod a b)

theorem jumpIf_ignoresFl (taken : Bool) (a : RegIdx) : (jumpIf taken a).IgnoresFl := by
  intro s f
  cases taken <;> rfl

theorem pushHandler_ignoresFl (a : RegIdx) : (pushHandler a).IgnoresFl := by
  refine ignoresFl_bind (fun _ _ => rfl) fun sp s f => ?_
  simp only [memWrite_byte]
  rfl

theorem popHandler_ignoresFl (a : RegIdx) : (popHandler a).IgnoresFl :=
  ignoresFl_bind (fun _ _ => rfl) fun _ => ignoresFl_bind (fun _ _ => rfl) fun _ _ _ => rfl

theorem callHandler_ignoresFl (a : RegIdx) : (callHandler a).IgnoresFl := by
  refine ignoresFl_bind (fun _ _ => rfl) fun sp =>
    ignoresFl_ite (fun _ _ => Iff.rfl) (fun _ _ => rfl) fun s f => ?_
  simp only [memWrite_byte]
  rfl

theorem retHandler_ignoresFl : retHandler.IgnoresFl :=
  ignoresFl_bind (fun _ _ => rfl) fun _ => ignoresFl_bind (fun _ _ => rfl) fun _ _ _ => rfl

/-! ### One instruction under another FL -/

/-- PC control does not look at `FL` (R78). -/
theorem retire_setFl (op f : Byte) (s : State) (r : State × PcResult) :
    retire op (s.setFl f) (r.1.setFl f, r.2) = (retire op s r).setFl f := by
  obtain ⟨u, c⟩ := r
  cases c <;> rfl

theorem finish_setFl {h : Handler} (hh : h.IgnoresFl) {i : Instr} {s t : State} (e : finish i h s = .next t)
    (f : Byte) : finish i h (s.setFl f) = .next (t.setFl f) := by
  obtain ⟨g, eh, rfl⟩ | ⟨r, eh, rfl⟩ := finish_cases e
  · exact finish_error (by rw [hh, eh]; rfl)
  · rw [finish_ok (r := (r.1.setFl f, r.2)) (by rw [hh, eh]; rfl), retire_setFl]

/-- The bytes at PC are fetched the same under every `FL`. -/
theorem fetchInstr_setFl (s : State) (f : Byte) : fetchInstr (s.setFl f) = fetchInstr s := rfl

theorem eq_cmp_of_opcodeByte {i : Instr} (h : i.opcodeByte = 0xA7) : ∃ ra rb, i = .cmp ra rb := by
  cases i with
  | cmp ra rb => exact ⟨ra, rb, rfl⟩
  | _ => simp [Instr.opcodeByte] at h

/-- An instruction that is no CMP does the same under every `FL`, but for the byte put there; for JEQ and JNE the byte
put there has the same bit 0 (R18). -/
theorem exec_setFl {i : Instr} {s t : State} {f : Byte} (e : exec i s = .next t) (hcmp : i.opcodeByte ≠ 0xA7)
    (hE : (i.opcodeByte ≠ 0x55 ∧ i.opcodeByte ≠ 0x56) ∨ f.getLsbD 0 = s.fl.getLsbD 0) :
    exec i (s.setFl f) = .next (t.setFl f) := by
  cases i with
  | hlt => cases e; rfl
  | ldi ra imm => exact finish_setFl (withRegImm_ignoresFl ra imm fun _ _ _ => rfl) e f
  | prn ra => exact finish_setFl (withReg_ignoresFl ra fun _ _ _ => rfl) e f
  | not ra => exact finish_setFl (withReg_ignoresFl ra fun _ _ _ => rfl) e f
  | add ra rb | mul ra rb | or ra rb | xor ra rb | shl ra rb | shr ra rb =>
    exact finish_setFl (withRegs_ignoresFl ra rb (binaryOp_ignoresFl _)) e f
  | mod ra rb => exact finish_setFl (withRegs_ignoresFl ra rb modHandler_ignoresFl) e f
  | push ra => exact finish_setFl (withReg_ignoresFl ra pushHandler_ignoresFl) e f
  | pop ra => exact finish_setFl (withReg_ignoresFl ra popHandler_ignoresFl) e f
  | call ra => exact finish_setFl (withReg_ignoresFl ra callHandler_ignoresFl) e f
  | ret => exact finish_setFl retHandler_ignoresFl e f
  | jmp ra => exact finish_setFl (withReg_ignoresFl ra (jumpIf_ignoresFl true)) e f
  | jeq ra =>
    have hflag : (s.setFl f).flagE = s.flagE := hE.resolve_left fun h => h.1 rfl
    simp only [exec, execJeq, hflag] at e ⊢
    exact finish_setFl (withReg_ignoresFl ra (jumpIf_ignoresFl _)) e f
  | jne ra =>
    have hflag : (s.setFl f).flagE = s.flagE := hE.resolve_left fun h => h.2 rfl
    simp only [exec, execJne, hflag] at e ⊢
    exact finish_setFl (withReg_ignoresFl ra (jumpIf_ignoresFl _)) e f
  | cmp ra rb => exact absurd rfl hcmp

/-- Format F2RR under another `FL`: both operand bytes name registers, or the same fault is raised (R76). -/
theorem withRegs_setFl_cases (ra rb : Byte) (h : RegIdx → RegIdx → Handler) (s : State) (f : Byte) :
    (∃ a b, ra = regByte a ∧ rb = regByte b) ∨
    ∃ g, withRegs ra rb h s = .error g ∧ withRegs ra rb h (s.setFl f) = .error g := by
  have hc (b : Byte) (c : RangeCause) : checkReg b c (s.setFl f) = checkReg b c s := rfl
  obtain ⟨a, rfl, -, -⟩ | ⟨-, ea⟩ := checkReg_cases ra .regIndexA s
  · obtain ⟨b, rfl, -, -⟩ | ⟨-, eb⟩ := checkReg_cases rb .regIndexB s
    · exact .inl ⟨a, b, rfl, rfl⟩
    · exact .inr ⟨.addressOutOfRange rb.toNat s.pc .regIndexB, by simp [withRegs, eb, bind, Except.bind],
        by simp [withRegs, hc, eb, bind, Except.bind]⟩
  · exact .inr ⟨.addressOutOfRange ra.toNat s.pc .regIndexA, by simp [withRegs, ea, bind, Except.bind],
      by simp [withRegs, hc, ea, bind, Except.bind]⟩

/-- A CMP that completes gives the very same state under every `FL`; one that raises a fault raises the same and leaves
the byte put there (R18, R81, R110). -/
theorem exec_cmp_setFl {ra rb : Byte} {s t : State} (e : exec (.cmp ra rb) s = .next t) (f : Byte) :
    (t.rs = s.rs ∧ exec (.cmp ra rb) (s.setFl f) = .next t) ∨
    (t.rs = .faulted ∧ exec (.cmp ra rb) (s.setFl f) = .next (t.setFl f)) := by
  simp only [exec, execCmp] at e ⊢
  obtain ⟨a, b, rfl, rfl⟩ | ⟨g, eh, eh'⟩ := withRegs_setFl_cases ra rb _ s f
  · rw [finish_ok (withRegs_regByte a b _ s)] at e
    cases e
    exact .inl ⟨rfl, by rw [finish_ok (withRegs_regByte a b _ (s.setFl f))]; rfl⟩
  · rw [finish_raise e eh]
    exact .inr ⟨rfl, finish_error eh'⟩

/-! ### What a step writes of FL -/

/-- Only CMP writes `FL` (R18). -/
theorem effect_fl {s t : State} {i : Instr} (h : Effect s i t) (hcmp : i.opcodeByte ≠ 0xA7) : t.fl = s.fl := by
  cases h with
  | cmp a b => exact absurd rfl hcmp
  | _ => rfl

/-- CMP writes no register (R111). -/
theorem effect_cmp_regs {s t : State} {ra rb : Byte} (h : Effect s (.cmp ra rb) t) : t.regs = s.regs := by
  cases h <;> rfl

/-! ### The obligation -/

/-- Settles O47: by the two ways a step can end (`step_cases`). The fetch does not look at `FL`; of the instructions only
CMP replaces it, by a byte that does not depend on the old one, and only JEQ and JNE look at it, at bit 0. -/
theorem onlyCmpWritesAndOnlyJumpsReadFlags : Obligations.OnlyCmpWritesAndOnlyJumpsReadFlags := by
  intro s t h
  obtain ⟨hr, ⟨g, hf, rfl⟩ | ⟨i, hf, e⟩⟩ := step_cases h
  · refine ⟨fun _ => rfl, fun _ => rfl, fun f _ => ⟨fun hc => absurd rfl hc.2, fun _ => ?_⟩⟩
    exact step_of_fetch_error (s := s.setFl f) hr ((fetchInstr_setFl s f).trans hf)
  · obtain ⟨hop, -, -⟩ := fetchInstr_ok hf
    have hstep (f : Byte) : step (s.setFl f) = exec i (s.setFl f) :=
      step_of_fetch_ok (s := s.setFl f) hr ((fetchInstr_setFl s f).trans hf)
    have hrun := exec_effect e
    rw [hop]
    by_cases hcmp : i.opcodeByte = 0xA7
    · obtain ⟨ra, rb, rfl⟩ := eq_cmp_of_opcodeByte hcmp
      refine ⟨fun hn => absurd hcmp hn, fun _ => effect_cmp_regs hrun, fun f _ => ?_⟩
      obtain ⟨ht, et⟩ | ⟨ht, et⟩ := exec_cmp_setFl e f
      · exact ⟨fun _ => (hstep f).trans et, fun hn => absurd ⟨hcmp, by rw [ht, hr]; decide⟩ hn⟩
      · exact ⟨fun hc => absurd ht hc.2, fun _ => (hstep f).trans et⟩
    · refine ⟨fun _ => effect_fl hrun hcmp, fun hn => absurd hn hcmp, fun f hE => ?_⟩
      exact ⟨fun hc => absurd hc.1 hcmp, fun _ => (hstep f).trans (exec_setFl e hcmp hE)⟩

end Sys2Proof.Machine

/-! PROOFS. The encoding (spec/30_encoding.md R51, R56, R57): what the opcode map recognizes, what bytes that decode are
made of, and what a step does with an opcode byte that the map does not hold. -/

namespace Sys2Proof

open Machine (opcodeBytes operandCount_opcodeByte)

/-! ### The opcode map -/

/-- The table's opcodes are the list of R56. -/
theorem opcodeTable_opcodes : opcodeTable.map OpcodeRow.opcode = opcodeBytes := rfl

theorem opcodeBytes_nodup : opcodeBytes.Nodup := by decide

/-- The lookup recognizes exactly the 19 bytes of R56. -/
theorem lookupOpcode_isSome_iff (op : Byte) : (lookupOpcode op).isSome = true ↔ op ∈ opcodeBytes := by
  simp [lookupOpcode, ← opcodeTable_opcodes]

/-- An opcode byte with operand count 3 is in no row (R51). -/
theorem lookupOpcode_eq_none_of_count_gt {op : Byte} (h : 2 < operandCount op) : lookupOpcode op = none := by
  cases hl : lookupOpcode op with
  | none => rfl
  | some row => exact absurd (operandCount_of_lookup hl) (by omega)

/-- The lookup recognizes 19 of the 256 byte values: up to order, they are the distinct bytes of R56. -/
theorem length_recognizedBytes :
    ((List.finRange 256).filter fun k => (lookupOpcode (BitVec.ofFin k)).isSome).length = 19 := by
  have hperm : ((List.finRange 256).filter fun k => (lookupOpcode (BitVec.ofFin k)).isSome).Perm
      (opcodeBytes.map BitVec.toFin) := by
    refine (List.perm_ext_iff_of_nodup ((List.nodup_finRange 256).filter _)
      (opcodeBytes_nodup.map fun a b => BitVec.eq_of_toFin_eq)).mpr fun k => ?_
    rw [List.mem_filter, lookupOpcode_isSome_iff, List.mem_map]
    exact ⟨fun ⟨_, hop⟩ => ⟨_, hop, rfl⟩, fun ⟨op, hop, hk⟩ => ⟨List.mem_finRange k, hk ▸ hop⟩⟩
  rw [hperm.length_eq]; rfl

/-- The other 237 byte values are unrecognized (R57). -/
theorem length_unrecognizedBytes :
    ((List.finRange 256).filter fun k => (lookupOpcode (BitVec.ofFin k)).isNone).length = 237 := by
  have hall : (List.finRange 256).length = 256 := List.length_finRange
  have hsplit := List.length_eq_length_filter_add (α := Fin (2 ^ 8)) (l := List.finRange 256) fun k =>
    (lookupOpcode (BitVec.ofFin k)).isSome
  simp only [Option.not_isSome] at hsplit
  have hsome := length_recognizedBytes
  omega

/-! ### Decoding -/

/-- Bytes whose opcode is in no row do not decode, whatever follows it (R57). -/
theorem decode_of_lookup_none {op : Byte} (h : lookupOpcode op = none) (bytes : List Byte) :
    decode (op :: bytes) = .error (.unrecognizedOpcode op) := by
  simp [decode, h]

/-- An opcode of the map and as many operand bytes as its bits 7:6 say decode to what the row makes of them, and leave
the bytes after them (R51, R53). -/
theorem decode_of_lookup_some {op : Byte} {row : OpcodeRow} (hl : lookupOpcode op = some row) {operands : List Byte}
    (hn : operands.length = operandCount op) (rest : List Byte) :
    decode (op :: (operands ++ rest)) = .ok (row.build (operands.getD 0 0) (operands.getD 1 0), rest) := by
  have hle := operandCount_of_lookup hl
  match operands with
  | [] | [b1] | [b1, b2] => simp [decode, hl, ← hn]
  | b1 :: b2 :: b3 :: bs => simp only [List.length_cons] at hn; omega

/-- The row of an instruction's opcode makes the instruction of its operand bytes (R56). -/
theorem lookupOpcode_build (i : Instr) : ∃ row, lookupOpcode i.opcodeByte = some row ∧
    row.build (i.operandBytes.getD 0 0) (i.operandBytes.getD 1 0) = i := by
  cases i <;> exact ⟨_, rfl, rfl⟩

/-- The bytes of an instruction decode to it and leave the bytes after them (R50, R56). -/
theorem decode_encode_append (i : Instr) (rest : List Byte) : decode (encode i ++ rest) = .ok (i, rest) := by
  obtain ⟨row, hl, hbuild⟩ := lookupOpcode_build i
  rw [encode, List.cons_append, decode_of_lookup_some hl (operandCount_opcodeByte i).symm, hbuild]

/-- Bytes that decode are an opcode of the map, as many operand bytes as its bits 7:6 say, and the rest (R51, R53). -/
theorem decode_ok {op : Byte} {bytes : List Byte} {i : Instr} {rest : List Byte}
    (h : decode (op :: bytes) = .ok (i, rest)) :
    ∃ row operands, lookupOpcode op = some row ∧ bytes = operands ++ rest ∧
      operands.length = operandCount op ∧ i = row.build (operands.getD 0 0) (operands.getD 1 0) := by
  cases hl : lookupOpcode op with
  | none => rw [decode_of_lookup_none hl] at h; cases h
  | some row =>
    simp only [decode, hl] at h
    split at h <;> cases h
    next hn => exact ⟨row, [], rfl, rfl, hn.symm, rfl⟩
    next b1 hn => exact ⟨row, [b1], rfl, rfl, hn.symm, rfl⟩
    next b1 b2 hn => exact ⟨row, [b1, b2], rfl, rfl, hn.symm, rfl⟩

end Sys2Proof

namespace Sys2Proof.Machine

/-! ### The default advance -/

/-- An instruction that takes the default advance and leaves the machine running has moved the PC past its own bytes, as
bits 7:6 of its opcode count them (R51, R79). -/
theorem effect_defaultAdvance {s t : State} {i : Instr} (h : Effect s i t) (hadv : takesDefaultAdvance i s = true)
    (ht : t.rs = .running) : t.pc = s.pc + BitVec.ofNat 9 (1 + operandCount i.opcodeByte) := by
  rw [operandCount_opcodeByte]
  cases h with
  | ldi | prn | add | mul | mod | or | xor | not | shl | shr | cmp | push | pop | jeqNot | jneNot => rfl
  | hlt | call | ret | jmp => cases hadv
  | jeqTaken a hE => cases hadv.symm.trans (congrArg not hE)
  | jneTaken a hE => cases hadv.symm.trans hE
  | badA | badB | modZero | pushLow | callLow | callReturn | popHigh | retHigh => cases ht

/-! ### Raising a fault ends the run -/

/-- No fault kind has the status 0 (R160). -/
theorem faultStatus_ne_zero (k : Config.FaultKind) : Config.faultStatus k ≠ 0 := by
  unfold Config.faultStatus
  split <;> omega

@[simp] theorem exitStatus_raise (f : FaultRecord) (s : State) :
    exitStatus (raise f s) = some (Config.faultStatus f.kind) := rfl

@[simp] theorem step_raise (f : FaultRecord) (s : State) : step (raise f s) = .fault .faultedNoStep := rfl

/-- A running machine that fetches an opcode byte of no row raises UnrecognizedOpcode, also at address 255 (R57). -/
theorem step_of_lookup_none {s : State} (hr : s.rs = .running) (hpc : s.pc.toNat ≤ 255)
    (hl : lookupOpcode (s.codeByte 0) = none) :
    step s = .next (raise (.unrecognizedOpcode (s.codeByte 0) s.pc) s) := by
  obtain ⟨hgt, -⟩ | ⟨-, -, hf⟩ | ⟨row, -, hrow, -⟩ := fetchInstr_cases s
  · omega
  · exact step_of_fetch_error hr hf
  · rw [hl] at hrow; cases hrow

/-! ### The obligations -/

/-- Settles O35: what decodes is an opcode of the map with its counted operand bytes (`decode_ok`), no row has a count
of 3, and every rule of `Effect` with the default advance moves the PC by 1 + count. -/
theorem topBitsGiveLengthAndAdvance : Obligations.TopBitsGiveLengthAndAdvance := by
  refine ⟨fun op bytes i rest h => ?_, fun op bytes h => ?_, fun i s t hadv _ e ht => ?_⟩
  · obtain ⟨row, operands, hl, rfl, hlen, -⟩ := decode_ok h
    refine ⟨operandCount_of_lookup hl, ?_⟩
    rw [List.length_cons, List.length_append, hlen, operandCount]
    omega
  · exact decode_of_lookup_none (lookupOpcode_eq_none_of_count_gt (by rw [operandCount]; omega)) bytes
  · exact effect_defaultAdvance (exec_effect e) hadv ht

/-- Settles O36: 19 of the 256 bytes are recognized, and the step that fetches any other raises the fault, which ends
the run with a status that is not 0. -/
theorem unrecognizedOpcodesFault : Obligations.UnrecognizedOpcodesFault := by
  refine ⟨length_unrecognizedBytes, fun op h => ?_, fun s hr hpc hl => ?_⟩
  · obtain rfl | rfl | h := h
    · rfl
    · rfl
    · exact lookupOpcode_eq_none_of_count_gt (by rw [operandCount]; omega)
  · exact ⟨_, step_of_lookup_none hr hpc hl, rfl, rfl, rfl, by simp, _, exitStatus_raise _ _, faultStatus_ne_zero _⟩

/-- Settles O32: the lookup recognizes exactly the bytes of the list, and each row encodes its instruction. -/
theorem opcodeMapIsComplete : Obligations.OpcodeMapIsComplete := by
  refine ⟨⟨rfl, opcodeBytes_nodup, rfl⟩, lookupOpcode_isSome_iff, fun x y z => ?_⟩
  exact ⟨decode_encode_append .hlt z, decode_encode_append (.ldi x y) z, decode_encode_append (.prn x) z,
    decode_encode_append (.add x y) z, decode_encode_append (.mul x y) z, decode_encode_append (.mod x y) z,
    decode_encode_append (.or x y) z, decode_encode_append (.xor x y) z, decode_encode_append (.not x) z,
    decode_encode_append (.shl x y) z, decode_encode_append (.shr x y) z, decode_encode_append (.push x) z,
    decode_encode_append (.pop x) z, decode_encode_append (.call x) z, decode_encode_append .ret z,
    decode_encode_append (.cmp x y) z, decode_encode_append (.jmp x) z, decode_encode_append (.jeq x) z,
    decode_encode_append (.jne x) z⟩

end Sys2Proof.Machine

/-! PROOFS. The engine (spec/40_engine.md R70, R71): when a step exists. -/

namespace Sys2Proof.Machine

/-- HLT stops without a handler (R73); every other arm of `exec` is a handler run through `finish`, which always
answers, faults included (R155). -/
theorem exec_answers (i : Instr) (s : State) : ∃ t, exec i s = .next t := by
  cases i with
  | hlt => exact ⟨s.setRs .halted, rfl⟩
  | _ => exact finish_answers _ _ s

/-- A running machine has a step: the fault its fetch raises, or the fetched instruction run (R71). -/
theorem step_answers {s : State} (hr : s.rs = .running) : ∃ t, step s = .next t := by
  cases hf : fetchInstr s with
  | error f => exact ⟨_, step_of_fetch_error hr hf⟩
  | ok i => rw [step_of_fetch_ok hr hf]; exact exec_answers i s

/-- Settles O39: a step needs a running machine (`step_cases`), and a running machine has one (`step_answers`). -/
theorem stepExistsExactlyWhenRunning : Obligations.StepExistsExactlyWhenRunning :=
  fun _ => ⟨fun ⟨_, h⟩ => (step_cases h).1, step_answers⟩

end Sys2Proof.Machine

/-! PROOFS. HLT, LDI and PRN (spec/41_hlt_ldi_prn.md R90 to R92): the exact next state of each. -/

namespace Sys2Proof.Machine

/-! ### The next states -/

/-- The next state of a handler that completes with the default advance: the PC moves past the instruction's own bytes
(R51, R78). -/
theorem finish_of_advance {i : Instr} {h : Handler} {s u : State} (e : h s = .ok (u, .advance)) :
    finish i h s = .next (u.setPc (s.pc + BitVec.ofNat 9 (1 + i.operandBytes.length))) := by
  rw [finish_ok e, retire_advance, operandCount_opcodeByte]

theorem exec_hlt (s : State) : exec .hlt s = .next (s.setRs .halted) := rfl

theorem exec_ldi_regByte (a : RegIdx) (imm : Byte) (s : State) :
    exec (.ldi (regByte a) imm) s = .next ((s.setReg a imm).setPc (s.pc + 3)) :=
  finish_of_advance (withRegImm_regByte a imm (fun a v s => .ok (s.setReg a v, .advance)) s)

theorem exec_prn_regByte (a : RegIdx) (s : State) :
    exec (.prn (regByte a)) s = .next ((s.emit (s.reg a)).setPc (s.pc + 2)) :=
  finish_of_advance (withReg_regByte a (fun a s => .ok (s.emit (s.reg a), .advance)) s)

/-! ### The fetch of HLT -/

/-- The byte 0x01 alone is an HLT: no operand byte is fetched, so it may stand at address 255 (R51, R90). -/
theorem fetchInstr_of_hltByte {s : State} (hpc : s.pc.toNat ≤ 255) (hop : s.codeByte 0 = 0x01) :
    fetchInstr s = .ok .hlt := by
  have hread : memRead s.pc.toNat .opcodeFetch s = .ok 0x01 :=
    (memRead_inRange hpc _ s).trans (congrArg Except.ok hop)
  rw [fetchInstr, hread]; rfl

/-! ### The obligations -/

/-- Settles O4: a step that fetches 0x01 is HLT's `exec`, and a machine that is not running has no step (`step_cases`). -/
theorem hltHaltsInPlace : Obligations.HltHaltsInPlace := by
  refine ⟨rfl, fun s => ⟨exec_hlt s, fun hr hpc hop => ?_, fun t ht => ?_⟩⟩
  · rw [step_of_fetch_ok hr (fetchInstr_of_hltByte hpc hop)]
    exact exec_hlt s
  · cases ht
    refine ⟨fun ⟨u, hu⟩ => ?_, rfl⟩
    obtain ⟨hrunning, -⟩ := step_cases hu
    cases hrunning

/-- Settles O5: LDI's next state holds the immediate in the register (`State.reg_setReg_same`), and PRN emits what the
register holds. -/
theorem ldiLoadsTheImmediate : Obligations.LdiLoadsTheImmediate := by
  refine fun a imm s => ⟨rfl, exec_ldi_regByte a imm s, fun t ht => ?_⟩
  rw [exec_ldi_regByte] at ht
  cases ht
  exact ⟨_, exec_prn_regByte a _, by simp⟩

end Sys2Proof.Machine

/-! PROOFS. The ALU (spec/42_alu.md R100 to R107): the value each operation writes, and the exact next state. -/

namespace Sys2Proof.Machine

/-! ### The values -/

theorem toNat_aluAdd (a b : Byte) : (aluAdd a b).toNat = (a.toNat + b.toNat) % 256 := toNat_narrow _

theorem toNat_aluMul (a b : Byte) : (aluMul a b).toNat = (a.toNat * b.toNat) % 256 := toNat_narrow _

theorem getLsbD_aluOr (a b : Byte) (k : Nat) : (aluOr a b).getLsbD k = (a.getLsbD k || b.getLsbD k) :=
  BitVec.getLsbD_or

theorem getLsbD_aluXor (a b : Byte) (k : Nat) : (aluXor a b).getLsbD k = (a.getLsbD k ^^ b.getLsbD k) :=
  BitVec.getLsbD_xor

theorem toNat_aluNot (a : Byte) : (aluNot a).toNat = 255 - a.toNat := by
  rw [aluNot, toNat_narrow, Nat.mod_eq_of_lt (by omega)]

/-- Subtracting from 255 inverts the bits: both have the same number (R107). -/
theorem aluNot_eq_not (a : Byte) : aluNot a = ~~~a := by
  apply BitVec.eq_of_toNat_eq
  simp only [toNat_aluNot, BitVec.toNat_not, Nat.reducePow, Nat.reduceSub]

theorem getLsbD_aluNot (a : Byte) {k : Nat} (hk : k < 8) : (aluNot a).getLsbD k = !a.getLsbD k := by
  rw [aluNot_eq_not, BitVec.getLsbD_not, decide_eq_true hk, Bool.true_and]

/-! ### The next states -/

/-- Every two-operand operation on named registers ends alike: the result goes to `x[ra]`, equal registers and R7
included, and the PC moves past the three bytes (R100). -/
theorem finish_binaryOp_regByte {i : Instr} (hi : i.operandBytes.length = 2) (f : Byte → Byte → Byte) (a b : RegIdx)
    (s : State) : finish i (withRegs (regByte a) (regByte b) (binaryOp f)) s =
      .next ((s.setReg a (f (s.reg a) (s.reg b))).setPc (s.pc + 3)) := by
  rw [finish_of_advance (withRegs_regByte a b (binaryOp f) s), hi]; rfl

theorem exec_add_regByte (a b : RegIdx) (s : State) : exec (.add (regByte a) (regByte b)) s =
    .next ((s.setReg a (aluAdd (s.reg a) (s.reg b))).setPc (s.pc + 3)) :=
  finish_binaryOp_regByte rfl aluAdd a b s

theorem exec_mul_regByte (a b : RegIdx) (s : State) : exec (.mul (regByte a) (regByte b)) s =
    .next ((s.setReg a (aluMul (s.reg a) (s.reg b))).setPc (s.pc + 3)) :=
  finish_binaryOp_regByte rfl aluMul a b s

theorem exec_or_regByte (a b : RegIdx) (s : State) : exec (.or (regByte a) (regByte b)) s =
    .next ((s.setReg a (aluOr (s.reg a) (s.reg b))).setPc (s.pc + 3)) :=
  finish_binaryOp_regByte rfl aluOr a b s

theorem exec_xor_regByte (a b : RegIdx) (s : State) : exec (.xor (regByte a) (regByte b)) s =
    .next ((s.setReg a (aluXor (s.reg a) (s.reg b))).setPc (s.pc + 3)) :=
  finish_binaryOp_regByte rfl aluXor a b s

theorem exec_not_regByte (a : RegIdx) (s : State) : exec (.not (regByte a)) s =
    .next ((s.setReg a (aluNot (s.reg a))).setPc (s.pc + 2)) :=
  finish_of_advance (withReg_regByte a (fun a s => .ok (s.setReg a (aluNot (s.reg a)), .advance)) s)

/-! ### The obligations -/

/-- Settles O7: the byte written is `aluAdd` of the operands, the sum narrowed once. -/
theorem addWritesTheSumModulo256 : Obligations.AddWritesTheSumModulo256 :=
  fun a b s => ⟨rfl, aluAdd (s.reg a) (s.reg b), toNat_aluAdd _ _, exec_add_regByte a b s⟩

/-- Settles O8: the byte written is `aluMul` of the operands, the product narrowed once. -/
theorem mulKeepsTheLowByte : Obligations.MulKeepsTheLowByte :=
  fun a b s => ⟨rfl, aluMul (s.reg a) (s.reg b), toNat_aluMul _ _, exec_mul_regByte a b s⟩

/-- Settles O10: the byte written is `aluOr` of the operands. -/
theorem orIsBitwise : Obligations.OrIsBitwise :=
  fun a b s => ⟨rfl, aluOr (s.reg a) (s.reg b), fun k _ => getLsbD_aluOr _ _ k, exec_or_regByte a b s⟩

/-- Settles O11: the byte written is `aluXor` of the operands. -/
theorem xorIsBitwise : Obligations.XorIsBitwise :=
  fun a b s => ⟨rfl, aluXor (s.reg a) (s.reg b), fun k _ => getLsbD_aluXor _ _ k, exec_xor_regByte a b s⟩

/-- Settles O12: the byte written is `aluNot` of the operand, which is its bitwise complement (`aluNot_eq_not`). -/
theorem notInvertsEveryBit : Obligations.NotInvertsEveryBit :=
  fun a s => ⟨rfl, aluNot (s.reg a), toNat_aluNot _, fun _ hk => getLsbD_aluNot _ hk, exec_not_regByte a s⟩

end Sys2Proof.Machine

/-! PROOFS. The jumps (spec/44_jumps.md R140 to R142): the exact next state, taken and not taken. -/

namespace Sys2Proof.Machine

/-! ### The next states -/

/-- The three jumps on a named register end alike: at the register's byte, kept as it is (R79), or past the two bytes. -/
theorem finish_jumpIf_regByte {i : Instr} (hi : i.operandBytes.length = 1) (taken : Bool) (a : RegIdx) (s : State) :
    finish i (withReg (regByte a) (jumpIf taken)) s =
      .next (if taken then s.jumpTo (s.reg a) else s.setPc (s.pc + 2)) := by
  cases taken with
  | true => exact finish_ok (withReg_regByte a (jumpIf true) s)
  | false => rw [finish_of_advance (withReg_regByte a (jumpIf false) s), hi]; rfl

theorem exec_jmp_regByte (a : RegIdx) (s : State) : exec (.jmp (regByte a)) s = .next (s.jumpTo (s.reg a)) :=
  finish_jumpIf_regByte rfl true a s

theorem exec_jeq_regByte (a : RegIdx) (s : State) : exec (.jeq (regByte a)) s =
    .next (if s.flagE then s.jumpTo (s.reg a) else s.setPc (s.pc + 2)) :=
  finish_jumpIf_regByte rfl s.flagE a s

theorem exec_jne_regByte (a : RegIdx) (s : State) : exec (.jne (regByte a)) s =
    .next (if !s.flagE then s.jumpTo (s.reg a) else s.setPc (s.pc + 2)) :=
  finish_jumpIf_regByte rfl (!s.flagE) a s

/-- A jump to the PC's own address leaves the state as it is (R140). -/
theorem jumpTo_eq_self {s : State} {v : Byte} (h : s.pc.toNat = v.toNat) : s.jumpTo v = s := by
  have hpc : v.setWidth 9 = s.pc := by
    apply BitVec.eq_of_toNat_eq
    rw [BitVec.toNat_setWidth_of_le (by decide), h]
  rw [State.jumpTo, State.setPc, hpc]

/-! ### The obligations -/

/-- Settles O22: JMP is the jump that is always taken, and a jump to its own address changes nothing
(`jumpTo_eq_self`). -/
theorem jmpGoesToTheRegister : Obligations.JmpGoesToTheRegister := by
  refine fun a s => ⟨rfl, exec_jmp_regByte a s, fun hself => ?_⟩
  rw [exec_jmp_regByte, jumpTo_eq_self hself]

/-- Settles O24: JNE and JEQ jump under opposite values of `FL.E`, so each value makes one of them jump and the other
advance. -/
theorem jneJumpsWhenNotEqual : Obligations.JneJumpsWhenNotEqual := by
  refine fun a s => ⟨rfl, fun hE => ?_, fun hE => ?_⟩
  · have hflag : s.flagE = false := hE
    rw [exec_jne_regByte, exec_jeq_regByte, hflag]
    exact ⟨rfl, rfl⟩
  · have hflag : s.flagE = true := hE
    rw [exec_jne_regByte, exec_jeq_regByte, hflag]
    exact ⟨rfl, rfl⟩

end Sys2Proof.Machine

/-! PROOFS. The round trip between instructions and bytes (spec/30_encoding.md section 1, R50 to R56). -/

namespace Sys2Proof

/-- A row of the map makes an instruction of its own opcode, with as many of the operand bytes as the opcode counts
(R51, R56). -/
theorem build_of_mem_opcodeTable {row : OpcodeRow} (h : row ∈ opcodeTable) (b1 b2 : Byte) :
    (row.build b1 b2).opcodeByte = row.opcode ∧
    (row.build b1 b2).operandBytes = [b1, b2].take (operandCount row.opcode) := by
  simp only [opcodeTable, List.cons_append, List.nil_append, List.mem_cons, List.not_mem_nil, or_false] at h
  rcases h with rfl | rfl | rfl | rfl | rfl | rfl | rfl | rfl | rfl | rfl | rfl | rfl | rfl | rfl | rfl | rfl |
    rfl | rfl | rfl <;> exact ⟨rfl, rfl⟩

/-- Operand bytes, at most two, are the first two of themselves, cut off where they end. -/
theorem take_getD_eq_self {operands : List Byte} (h : operands.length ≤ 2) :
    [operands.getD 0 0, operands.getD 1 0].take operands.length = operands := by
  match operands with
  | [] | [_] | [_, _] => rfl
  | _ :: _ :: _ :: _ => simp only [List.length_cons] at h; omega

/-- Settles O33: the row of the instruction's opcode makes it again of its operand bytes (`decode_encode_append`). -/
theorem decodeOfEncodeIsTheInstruction : Obligations.DecodeOfEncodeIsTheInstruction :=
  decode_encode_append

/-- Settles O34: bytes that decode are an opcode of the map, its counted operand bytes and the rest (`decode_ok`), and
the row's instruction has that opcode and those operand bytes. -/
theorem decodedBytesAreTheEncoding : Obligations.DecodedBytesAreTheEncoding := by
  intro bytes i rest h
  match bytes with
  | [] => cases h
  | op :: bytes =>
    obtain ⟨row, operands, hl, rfl, hlen, rfl⟩ := decode_ok h
    obtain ⟨hrow, hop⟩ := lookupOpcode_some hl
    obtain ⟨hopcode, hoperands⟩ := build_of_mem_opcodeTable hrow (operands.getD 0 0) (operands.getD 1 0)
    have hle : operands.length ≤ 2 := hlen.trans_le (operandCount_of_lookup hl)
    rw [encode, hopcode, hoperands, hop, ← hlen, take_getD_eq_self hle, List.cons_append]

end Sys2Proof

/-! PROOFS. What a fetched instruction says of the bytes at PC, and that the fetch and the decoder read them alike
(spec/40_engine.md R71 to R75). -/

namespace Sys2Proof.Machine

/-! ### The bytes of a fetched instruction -/

/-- The opcode at PC counts the operand bytes of the fetched instruction (R51). -/
theorem operandCount_of_fetch {s : State} {i : Instr} (h : fetchInstr s = .ok i) :
    operandCount (s.codeByte 0) = i.operandBytes.length := by
  obtain ⟨hop, -, -⟩ := fetchInstr_ok h
  rw [hop, operandCount_opcodeByte]

/-- Operand byte `k + 1` lies at PC + `k` + 1 (R50). -/
theorem operandBytes_getElem? {s : State} {i : Instr} (h : fetchInstr s = .ok i) {k : Nat}
    (hk : k < operandCount (s.codeByte 0)) : i.operandBytes[k]? = some (s.codeByte (k + 1)) := by
  rw [operandCount_of_fetch h] at hk
  obtain ⟨-, -, hoperands⟩ := fetchInstr_ok h
  rw [hoperands, List.getElem?_map, List.getElem?_range hk]; rfl

/-- The register operands are the operand bytes, but for LDI's immediate (R53, R55). -/
theorem registerOperands_eq (i : Instr) :
    i.registerOperands = if i.opcodeByte = 0x82 then i.operandBytes.take 1 else i.operandBytes := by
  cases i <;> rfl

theorem operandBytes_length_le (i : Instr) : i.operandBytes.length ≤ 2 := by
  cases i <;> simp [Instr.operandBytes]

theorem registerOperands_length_le (i : Instr) : i.registerOperands.length ≤ i.operandBytes.length := by
  rw [registerOperands_eq]
  split
  · rw [List.length_take]; omega
  · exact Nat.le_refl _

/-- Operand byte 1 is always a register index (R53). -/
theorem registerOperands_getElem?_zero (i : Instr) : i.registerOperands[0]? = i.operandBytes[0]? := by
  rw [registerOperands_eq]
  split
  · exact List.getElem?_take_of_lt (by decide)
  · rfl

/-- Register operand `ra` is the byte after the opcode. -/
theorem codeByte_of_registerOperands_cons {s : State} {i : Instr} (h : fetchInstr s = .ok i) {b : Byte}
    {rest : List Byte} (hi : i.registerOperands = b :: rest) : 1 ≤ operandCount (s.codeByte 0) ∧ s.codeByte 1 = b := by
  have hn : 1 ≤ operandCount (s.codeByte 0) := by
    have hle := registerOperands_length_le i
    rw [hi, List.length_cons] at hle
    rw [operandCount_of_fetch h]
    omega
  have hget := operandBytes_getElem? h hn
  rw [← registerOperands_getElem?_zero, hi] at hget
  exact ⟨hn, (Option.some.inj hget).symm⟩

/-- Register operands `ra` and `rb` are the two bytes after the opcode, which is not LDI's. -/
theorem codeByte_of_registerOperands_pair {s : State} {i : Instr} (h : fetchInstr s = .ok i) {a b : Byte}
    (hi : i.registerOperands = [a, b]) :
    operandCount (s.codeByte 0) = 2 ∧ s.codeByte 0 ≠ 0x82 ∧ s.codeByte 1 = a ∧ s.codeByte 2 = b := by
  obtain ⟨hop, -, -⟩ := fetchInstr_ok h
  obtain ⟨-, h1⟩ := codeByte_of_registerOperands_cons h hi
  have hlen := congrArg List.length hi
  rw [registerOperands_eq] at hi hlen
  split at hi
  · next hldi => rw [if_pos hldi, List.length_take, List.length_cons, List.length_cons] at hlen; omega
  · next hldi =>
    have hn : operandCount (s.codeByte 0) = 2 := by rw [operandCount_of_fetch h, hi]; rfl
    have hget := operandBytes_getElem? (k := 1) h (by omega)
    rw [hi] at hget
    exact ⟨hn, by rwa [hop], h1, (Option.some.inj hget).symm⟩

/-- The byte after the opcode, where the opcode counts it, is a register operand. -/
theorem codeByte_one_mem_registerOperands {s : State} {i : Instr} (h : fetchInstr s = .ok i)
    (hn : 1 ≤ operandCount (s.codeByte 0)) : s.codeByte 1 ∈ i.registerOperands :=
  List.mem_of_getElem? ((registerOperands_getElem?_zero i).trans (operandBytes_getElem? h hn))

/-- The second byte after the opcode is a register operand, where the opcode counts it and is not LDI's. -/
theorem codeByte_two_mem_registerOperands {s : State} {i : Instr} (h : fetchInstr s = .ok i)
    (hn : operandCount (s.codeByte 0) = 2) (hldi : s.codeByte 0 ≠ 0x82) : s.codeByte 2 ∈ i.registerOperands := by
  obtain ⟨hop, -, -⟩ := fetchInstr_ok h
  rw [registerOperands_eq, if_neg (by rwa [← hop])]
  exact List.mem_of_getElem? (operandBytes_getElem? (k := 1) h (by omega))

/-- A register operand of the fetched instruction is a register that the bytes at PC name (R53). -/
theorem namesReg_of_mem_registerOperands {s : State} {i : Instr} (h : fetchInstr s = .ok i) {r : RegIdx}
    (hr : regByte r ∈ i.registerOperands) : s.namesReg r := by
  match hi : i.registerOperands, hr with
  | [], hr => cases hr
  | [a], hr =>
    obtain rfl := List.mem_singleton.mp hr
    exact .inl (codeByte_of_registerOperands_cons h hi)
  | [a, b], hr =>
    obtain ⟨hcount, hldi, h1, h2⟩ := codeByte_of_registerOperands_pair h hi
    obtain hr | hr := List.mem_pair.mp hr
    · exact .inl ⟨by rw [← operandCount, hcount]; decide, h1.trans hr.symm⟩
    · exact .inr ⟨hcount, hldi, h2.trans hr.symm⟩
  | a :: b :: c :: l, _ =>
    have hle := registerOperands_length_le i
    have hle' := operandBytes_length_le i
    rw [hi] at hle
    simp only [List.length_cons] at hle
    omega

/-! ### The fetch and the decoder -/

/-- The bytes at PC, PC+1 and PC+2, cut off at address 256 (R15). -/
theorem codeBytes_eq_take (s : State) :
    s.codeBytes = [s.codeByte 0, s.codeByte 1, s.codeByte 2].take (256 - s.pc.toNat) := by
  by_cases h0 : 255 < s.pc.toNat
  · simp [State.codeBytes, List.range_succ, (by omega : 256 - s.pc.toNat = 0)]
    omega
  by_cases h1 : s.pc.toNat = 255
  · simp [State.codeBytes, List.range_succ, h1]
  by_cases h2 : s.pc.toNat = 254
  · simp [State.codeBytes, List.range_succ, h2]
  · have hall : ∀ k ∈ List.range 3, decide (s.pc.toNat + k ≤ 255) = true := fun k hk => by
      have := List.mem_range.mp hk
      exact decide_eq_true (by omega)
    rw [State.codeBytes, List.filter_eq_self.mpr hall, List.take_of_length_le (by simp; omega)]
    rfl

theorem codeBytes_of_pc_le {s : State} (h : s.pc.toNat ≤ 255) :
    s.codeBytes = s.codeByte 0 :: s.codeBytes.tail := by
  obtain ⟨n, hn⟩ : ∃ n, 256 - s.pc.toNat = n + 1 := ⟨255 - s.pc.toNat, by omega⟩
  rw [codeBytes_eq_take, hn]; rfl

/-- The bytes at PC begin with those of the fetched instruction, so they decode to it. -/
theorem decode_of_fetch {s : State} {i : Instr} (h : fetchInstr s = .ok i) :
    ∃ rest, decode s.codeBytes = .ok (i, rest) := by
  obtain ⟨hop, hpc, hoperands⟩ := fetchInstr_ok h
  have hle := operandBytes_length_le i
  have hprefix : encode i = s.codeBytes.take (1 + i.operandBytes.length) := by
    rw [codeBytes_eq_take, List.take_take, encode, hoperands, hop, List.length_map, List.length_range,
      Nat.min_eq_left (by omega)]
    interval_cases i.operandBytes.length <;> rfl
  refine ⟨s.codeBytes.drop (1 + i.operandBytes.length), ?_⟩
  rw [← decode_encode_append, hprefix, List.take_append_drop]

/-- Fetch and decoder side by side, wherever the PC can be (R15, R72, R74, R75). -/
theorem fetch_decode_cases {s : State} (hpc : s.pc.toNat ≤ 256) :
    (s.pc.toNat = 256 ∧ fetchInstr s = .error (.addressOutOfRange 256 s.pc .opcodeFetch) ∧
      decode s.codeBytes = .error .noOpcode) ∨
    (fetchInstr s = .error (.unrecognizedOpcode (s.codeByte 0) s.pc) ∧
      decode s.codeBytes = .error (.unrecognizedOpcode (s.codeByte 0))) ∨
    (s.pc.toNat = 255 ∧ fetchInstr s = .error (.addressOutOfRange 256 s.pc .operand1Fetch) ∧
      decode s.codeBytes = .error .noOperand1) ∨
    (s.pc.toNat = 254 ∧ fetchInstr s = .error (.addressOutOfRange 256 s.pc .operand2Fetch) ∧
      decode s.codeBytes = .error .noOperand2) ∨
    ∃ i rest, fetchInstr s = .ok i ∧ decode s.codeBytes = .ok (i, rest) := by
  obtain ⟨h, hf⟩ | ⟨h, hl, hf⟩ | ⟨row, h, hl, ⟨hcount, h1, hf⟩ | ⟨hcount, h1, h2, hf⟩ | ⟨-, -, hf⟩⟩ :=
      fetchInstr_cases s
  · have hpc : s.pc.toNat = 256 := by omega
    refine .inl ⟨hpc, by rw [hf, hpc]; rfl, by rw [codeBytes_eq_take, hpc]; rfl⟩
  · refine .inr (.inl ⟨hf, ?_⟩)
    rw [codeBytes_of_pc_le h, decode_of_lookup_none hl]
  · have hpc : s.pc.toNat = 255 := by omega
    have hle := operandCount_of_lookup hl
    refine .inr (.inr (.inl ⟨hpc, by rw [hf, hpc]; rfl, ?_⟩))
    rw [codeBytes_eq_take, hpc]
    obtain hn | hn : operandCount (s.codeByte 0) = 1 ∨ operandCount (s.codeByte 0) = 2 := by omega
    all_goals simp [decode, hl, hn]
  · have hpc : s.pc.toNat = 254 := by omega
    refine .inr (.inr (.inr (.inl ⟨hpc, by rw [hf, hpc]; rfl, ?_⟩)))
    simp [codeBytes_eq_take, hpc, decode, hl, hcount]
  · obtain ⟨rest, hd⟩ := decode_of_fetch hf
    exact .inr (.inr (.inr (.inr ⟨_, rest, hf, hd⟩)))

end Sys2Proof.Machine

/-! PROOFS. The step and the decoder (spec/40_engine.md section 1): a step runs what the bytes at PC decode to, or
raises the fault of what they do not. -/

namespace Sys2Proof.Machine

theorem fetch_of_decode {s : State} {i : Instr} {rest : List Byte} (h : decode s.codeBytes = .ok (i, rest)) :
    fetchInstr s = .ok i := by
  have hpc : s.pc.toNat ≤ 255 := by
    by_contra hgt
    rw [codeBytes_eq_take, show 256 - s.pc.toNat = 0 by omega] at h
    cases h
  obtain ⟨-, -, hd⟩ | ⟨-, hd⟩ | ⟨-, -, hd⟩ | ⟨-, -, hd⟩ | ⟨j, _, hf, hd⟩ := fetch_decode_cases (s := s) (by omega)
  all_goals rw [h] at hd; cases hd
  exact hf

/-- Settles O37: what the bytes at PC decode to is what the step fetches (`fetch_of_decode`). -/
theorem stepRunsTheDecodedInstruction : Obligations.StepRunsTheDecodedInstruction :=
  fun _ _ _ hr hd => step_of_fetch_ok hr (fetch_of_decode hd)

/-- Settles O38: each decode error stands beside the fetch's fault (`fetch_decode_cases`). -/
theorem stepFaultsOnUndecodableBytes : Obligations.StepFaultsOnUndecodableBytes := by
  intro s hr hpc
  obtain ⟨h, hf, hd⟩ | ⟨hf, hd⟩ | ⟨h, hf, hd⟩ | ⟨h, hf, hd⟩ | ⟨i, rest, -, hd⟩ := fetch_decode_cases hpc
  · exact ⟨fun _ => ⟨h, step_of_fetch_error hr hf⟩, by simp [hd], by simp [hd], by simp [hd]⟩
  · refine ⟨by simp [hd], fun op e => ?_, by simp [hd], by simp [hd]⟩
    rw [hd] at e; cases e
    exact step_of_fetch_error hr hf
  · exact ⟨by simp [hd], by simp [hd], fun _ => ⟨h, step_of_fetch_error hr hf⟩, by simp [hd]⟩
  · exact ⟨by simp [hd], by simp [hd], by simp [hd], fun _ => ⟨h, step_of_fetch_error hr hf⟩⟩
  · simp [hd]

end Sys2Proof.Machine

/-! PROOFS. Everything `exec` can do, the other way round: each rule of `Effect` is what `exec` answers. With
`exec_effect` a proof about an instruction runs it by naming a rule. -/

namespace Sys2Proof.Machine

/-- A register operand `ra` above 7 is found by every format (R76). -/
theorem exec_badA {i : Instr} {b : Byte} {rest : List Byte} (hi : i.registerOperands = b :: rest) (h : b.toNat > 7)
    (s : State) : exec i s = .next (raise (.addressOutOfRange b.toNat s.pc .regIndexA) s) := by
  have hcheck : checkReg b .regIndexA s = .error (.addressOutOfRange b.toNat s.pc .regIndexA) := by
    rw [checkReg, dif_neg (by omega)]
  cases i with
  | hlt | ret => cases hi
  | ldi ra imm => cases hi; exact finish_error (by rw [withRegImm, hcheck]; rfl)
  | prn | not | push | pop | call | jmp | jeq | jne => cases hi; exact finish_error (by rw [withReg, hcheck]; rfl)
  | add | mul | mod | or | xor | shl | shr | cmp => cases hi; exact finish_error (by rw [withRegs, hcheck]; rfl)

/-- A register operand `rb` above 7 is found after `ra` passed (R76). -/
theorem exec_badB {i : Instr} {a b : Byte} (hi : i.registerOperands = [a, b]) (ha : a.toNat ≤ 7) (h : b.toNat > 7)
    (s : State) : exec i s = .next (raise (.addressOutOfRange b.toNat s.pc .regIndexB) s) := by
  have hcheckA : checkReg a .regIndexA s = .ok ⟨a.toNat, by omega⟩ := by rw [checkReg, dif_pos]
  have hcheckB : checkReg b .regIndexB s = .error (.addressOutOfRange b.toNat s.pc .regIndexB) := by
    rw [checkReg, dif_neg (by omega)]
  cases i with
  | hlt | ret | ldi | prn | not | push | pop | call | jmp | jeq | jne => cases hi
  | add | mul | mod | or | xor | shl | shr | cmp =>
    cases hi; exact finish_error (by simp only [withRegs, hcheckA, bind, Except.bind, hcheckB])

/-- Each rule of `Effect` is what `exec` answers. -/
theorem Effect.exec {s t : State} {i : Instr} (h : Effect s i t) : exec i s = .next t := by
  cases h with
  | hlt => rfl
  | ldi a imm => exact exec_ldi_regByte a imm s
  | prn a => exact exec_prn_regByte a s
  | add a b => exact exec_add_regByte a b s
  | mul a b => exact exec_mul_regByte a b s
  | mod a b h =>
    exact finish_of_advance ((withRegs_regByte a b modHandler s).trans (if_neg h))
  | or a b => exact exec_or_regByte a b s
  | xor a b => exact exec_xor_regByte a b s
  | not a => exact exec_not_regByte a s
  | shl a b => exact finish_binaryOp_regByte rfl aluShl a b s
  | shr a b => exact finish_binaryOp_regByte rfl aluShr a b s
  | cmp a b =>
    exact finish_of_advance
      (withRegs_regByte a b (fun a b s => .ok (s.setFl (compareFlags (s.reg a) (s.reg b)), .advance)) s)
  | push a h =>
    obtain ⟨h0, -⟩ | ⟨-, e⟩ := pushHandler_cases a s
    · exact absurd h0 h
    · exact finish_of_advance ((withReg_regByte a pushHandler s).trans e)
  | pop a h =>
    obtain ⟨h255, -⟩ | ⟨-, e⟩ := popHandler_cases a s
    · exact absurd h255 h
    · exact finish_of_advance ((withReg_regByte a popHandler s).trans e)
  | call a h hp =>
    obtain ⟨h0, -⟩ | ⟨-, hp', -⟩ | ⟨-, -, e⟩ := callHandler_cases a s
    · exact absurd h0 h
    · omega
    · exact finish_ok ((withReg_regByte a callHandler s).trans e)
  | ret h =>
    obtain ⟨h255, -⟩ | ⟨-, e⟩ := retHandler_cases s
    · exact absurd h255 h
    · exact finish_ok e
  | jmp a => exact exec_jmp_regByte a s
  | jeqTaken a h => rw [exec_jeq_regByte, h]; rfl
  | jeqNot a h => rw [exec_jeq_regByte, h]; rfl
  | jneTaken a h => rw [exec_jne_regByte, h]; rfl
  | jneNot a h => rw [exec_jne_regByte, h]; rfl
  | badA i b rest hi h => exact exec_badA hi h s
  | badB i a b hi ha h => exact exec_badB hi ha h s
  | modZero a b h => exact finish_error ((withRegs_regByte a b modHandler s).trans (if_pos h))
  | pushLow a h =>
    obtain ⟨-, e⟩ | ⟨h0, -⟩ := pushHandler_cases a s
    · exact finish_error ((withReg_regByte a pushHandler s).trans e)
    · exact absurd h h0
  | callLow a h =>
    obtain ⟨-, e⟩ | ⟨h0, -⟩ | ⟨h0, -⟩ := callHandler_cases a s
    · exact finish_error ((withReg_regByte a callHandler s).trans e)
    all_goals exact absurd h h0
  | callReturn a h hp =>
    obtain ⟨h0, -⟩ | ⟨-, -, e⟩ | ⟨-, hp', -⟩ := callHandler_cases a s
    · exact absurd h0 h
    · exact finish_error ((withReg_regByte a callHandler s).trans e)
    · omega
  | popHigh a h =>
    obtain ⟨-, e⟩ | ⟨h255, -⟩ := popHandler_cases a s
    · exact finish_error ((withReg_regByte a popHandler s).trans e)
    · exact absurd h h255
  | retHigh h =>
    obtain ⟨-, e⟩ | ⟨h255, -⟩ := retHandler_cases s
    · exact finish_error e
    · exact absurd h h255

/-! ### What every rule keeps -/

/-- An instruction raises a fault, and then nothing else changes, or it completes: HLT halts, every other keeps the
run state, and none touches the record (R81, R90, R155). -/
theorem effect_raises_or_completes {s t : State} {i : Instr} (h : Effect s i t) :
    (∃ f, t = raise f s) ∨ (t.fault = s.fault ∧ t.rs = if i.opcodeByte = 0x01 then .halted else s.rs) := by
  cases h with
  | badA | badB | modZero | pushLow | callLow | callReturn | popHigh | retHigh => exact .inl ⟨_, rfl⟩
  | _ => exact .inr ⟨rfl, rfl⟩

/-- The run state and the record are as before, or a fault was raised; HLT alone is otherwise (R81, R90). -/
theorem effect_sameRunOrRaised {s t : State} {i : Instr} (h : Effect s i t) (hlt : i.opcodeByte ≠ 0x01) :
    SameRunOrRaised s t := by
  obtain hraise | ⟨hfault, hrs⟩ := effect_raises_or_completes h
  · exact .inr hraise
  · exact .inl ⟨by rw [hrs, if_neg hlt], hfault⟩

/-- What an instruction stores: nothing where PUSH or CALL raised a fault, or another instruction runs, else one byte
at the decremented SP (R34, R81). -/
theorem effect_mem_cases {s t : State} {i : Instr} (h : Effect s i t) :
    (t.mem = s.mem ∧ (i.opcodeByte = 0x45 ∨ i.opcodeByte = 0x50 → t.rs = .faulted)) ∨
    (∃ b, (i.opcodeByte = 0x45 ∨ i.opcodeByte = 0x50) ∧ t.rs = s.rs ∧ s.sp ≠ 0 ∧
      t.mem = s.mem.write (s.sp - 1).toNat b) := by
  cases h with
  | push a h => exact .inr ⟨_, .inl rfl, rfl, h, rfl⟩
  | call a h hp => exact .inr ⟨_, .inr rfl, rfl, h, rfl⟩
  | badA | badB | pushLow | callLow | callReturn => exact .inl ⟨rfl, fun _ => rfl⟩
  | _ => exact .inl ⟨rfl, fun h => by simp [Instr.opcodeByte] at h⟩

/-- Only PUSH and CALL store (R34). -/
theorem effect_mem {s t : State} {i : Instr} (h : Effect s i t) (hpush : i.opcodeByte ≠ 0x45)
    (hcall : i.opcodeByte ≠ 0x50) : t.mem = s.mem := by
  obtain ⟨hmem, -⟩ | ⟨_, hpush' | hcall', -⟩ := effect_mem_cases h
  · exact hmem
  · exact absurd hpush' hpush
  · exact absurd hcall' hcall

/-- Only PRN emits (R23). -/
theorem effect_out {s t : State} {i : Instr} (h : Effect s i t) (hprn : i.opcodeByte ≠ 0x47) : t.out = s.out := by
  cases h with
  | prn => exact absurd rfl hprn
  | _ => rfl

/-- The instructions that write the register their first operand byte names (R91, R100, R123). -/
def writesFirstOperand : Instr → Bool
  | .ldi _ _ | .add _ _ | .mul _ _ | .mod _ _ | .or _ _ | .xor _ _ | .not _ | .shl _ _ | .shr _ _ | .pop _ => true
  | _ => false

/-- The instructions that use R7 whatever their operand (R12). -/
def usesStack : Instr → Bool
  | .push _ | .pop _ | .call _ | .ret => true
  | _ => false

/-- A register changes only as the first operand of an instruction that writes it, or as R7 of a stack instruction
(R12). -/
theorem effect_reg {s t : State} {i : Instr} {r : RegIdx} (h : Effect s i t)
    (hdest : writesFirstOperand i = true → i.registerOperands.head? ≠ some (regByte r))
    (hstack : usesStack i = true → r ≠ 7) : t.reg r = s.reg r := by
  have hne {a : RegIdx} {l : List Byte} (hd : (regByte a :: l).head? ≠ some (regByte r)) : r ≠ a :=
    fun e => hd (by rw [e]; rfl)
  cases h with
  | ldi a | add a | mul a | mod a | or a | xor a | not a | shl a | shr a =>
    exact State.reg_setReg_other s _ (hne (hdest rfl))
  | push | call | ret => exact State.reg_setReg_other s _ (hstack rfl)
  | pop a => exact (State.reg_setReg_other _ _ (hstack rfl)).trans (State.reg_setReg_other s _ (hne (hdest rfl)))
  | _ => rfl

end Sys2Proof.Machine

/-! PROOFS. The frames of the instructions (spec/41_hlt_ldi_prn.md, 42_alu.md, 43_stack.md, 44_jumps.md): what each
leaves unchanged, from what every rule keeps. -/

namespace Sys2Proof.Machine

/-- What all instructions but HLT, PRN, CMP, PUSH and CALL leave unchanged. -/
theorem effect_quiet {s t : State} {i : Instr} (h : Effect s i t)
    (hop : i.opcodeByte ∉ ([0x01, 0x47, 0xA7, 0x45, 0x50] : List Byte)) :
    t.fl = s.fl ∧ SameMemory s t ∧ t.out = s.out ∧ SameRunOrRaised s t := by
  simp only [List.mem_cons, List.not_mem_nil, or_false, not_or] at hop
  obtain ⟨hhlt, hprn, hcmp, hpush, hcall⟩ := hop
  exact ⟨effect_fl h hcmp, fun a => by rw [effect_mem h hpush hcall], effect_out h hprn, effect_sameRunOrRaised h hhlt⟩

/-- An instruction that writes no register keeps all of them. -/
theorem effect_reg_of_reader {s t : State} {i : Instr} (h : Effect s i t) (hdest : writesFirstOperand i = false)
    (hstack : usesStack i = false) (r : RegIdx) : t.reg r = s.reg r :=
  effect_reg h (by simp [hdest]) (by simp [hstack])

/-- A register other than the one the byte `ra` names is not the first operand. -/
theorem head?_ne_of_val_ne {i : Instr} {ra : Byte} {rest : List Byte} {r : RegIdx}
    (hra : i.registerOperands = ra :: rest) (hr : r.val ≠ ra.toNat) :
    i.registerOperands.head? ≠ some (regByte r) := by
  rw [hra, List.head?_cons]
  intro e
  cases e
  exact hr (regByte_toNat r).symm

/-- Settles O25: none of the nine writes another register than its first operand's (`effect_reg`), and all are quiet
(`effect_quiet`). -/
theorem registerWritersFrame : Obligations.RegisterWritersFrame := by
  rintro ra rb s t (h | h | h | h | h | h | h | h | h)
  all_goals
    refine ⟨fun r hr => ?_, effect_quiet (exec_effect h) (by simp [Instr.opcodeByte])⟩
    exact effect_reg (exec_effect h) (fun _ => head?_ne_of_val_ne rfl hr) (by simp [usesStack])

/-- Settles O26: CMP writes no register, does not store and does not emit. -/
theorem cmpFrame : Obligations.CmpFrame := by
  intro ra rb s t e
  have h := exec_effect e
  exact ⟨effect_reg_of_reader h rfl rfl, fun a => by rw [effect_mem h] <;> simp [Instr.opcodeByte],
    effect_out h (by simp [Instr.opcodeByte]), effect_sameRunOrRaised h (by simp [Instr.opcodeByte])⟩

/-- The output only grows (R23). -/
theorem effect_out_prefix {s t : State} {i : Instr} (h : Effect s i t) : s.out <+: t.out := by
  cases h with
  | prn a => exact List.prefix_append s.out [s.reg a]
  | _ => exact List.prefix_refl _

/-- Settles O27: PRN writes no register and no flag, does not store, and appends to the output. -/
theorem prnFrame : Obligations.PrnFrame := by
  intro ra s t e
  have h := exec_effect e
  exact ⟨effect_reg_of_reader h rfl rfl, effect_fl h (by simp [Instr.opcodeByte]),
    fun a => by rw [effect_mem h] <;> simp [Instr.opcodeByte], effect_out_prefix h,
    effect_sameRunOrRaised h (by simp [Instr.opcodeByte])⟩

/-- Settles O28: the three jumps write no register and are quiet (`effect_quiet`). -/
theorem jumpFrame : Obligations.JumpFrame := by
  rintro ra s t (h | h | h)
  all_goals
    exact ⟨effect_reg_of_reader (exec_effect h) rfl rfl, effect_quiet (exec_effect h) (by simp [Instr.opcodeByte])⟩

/-- Settles O30: POP writes its operand and R7, RET R7 (`effect_reg`), and both are quiet (`effect_quiet`). -/
theorem popRetFrame : Obligations.PopRetFrame := by
  refine fun ra s t => ⟨fun e => ⟨fun r h7 hr => ?_, effect_quiet (exec_effect e) (by simp [Instr.opcodeByte])⟩,
    fun e => ⟨fun r h7 => ?_, effect_quiet (exec_effect e) (by simp [Instr.opcodeByte])⟩⟩
  · exact effect_reg (exec_effect e) (fun _ => head?_ne_of_val_ne rfl hr) fun _ => h7
  · exact effect_reg (exec_effect e) nofun fun _ => h7

/-- An instruction stores at most at the SP that `predecSp` answers, and nothing where that raises a fault (R121). -/
theorem effect_mem_predecSp {s t : State} {i : Instr} (h : Effect s i t) :
    (∀ sp, predecSp s = .ok sp → ∀ a, a ≠ sp.toNat → t.mem.read a = s.mem.read a) ∧
    (∀ f, predecSp s = .error f → SameMemory s t) := by
  obtain ⟨hmem, -⟩ | ⟨b, -, -, hsp, hmem⟩ := effect_mem_cases h
  · exact ⟨fun _ _ a _ => by rw [hmem], fun _ _ a => by rw [hmem]⟩
  · obtain ⟨h0, -⟩ | ⟨-, hpre, -⟩ := predecSp_cases s
    · exact absurd h0 hsp
    · rw [hpre, hmem]
      exact ⟨fun sp hok a ha => by cases hok; exact Memory.read_write_other s.mem b ha, nofun⟩

/-- Settles O29: PUSH and CALL write no register but R7 (`effect_reg`), neither flags nor output, and store at the SP
that `predecSp` answers, or nothing (`effect_mem_predecSp`). -/
theorem pushCallFrame : Obligations.PushCallFrame := by
  rintro ra s t (h | h)
  all_goals
    refine ⟨fun r hr => effect_reg (exec_effect h) nofun fun _ => hr, effect_fl (exec_effect h) ?_,
      effect_out (exec_effect h) ?_, effect_sameRunOrRaised (exec_effect h) ?_, effect_mem_predecSp (exec_effect h)⟩
    all_goals simp [Instr.opcodeByte]

end Sys2Proof.Machine

/-! PROOFS. Register operands above 7 (spec/30_encoding.md section 2, 40_engine.md R76). -/

namespace Sys2Proof.Machine

/-- An ill-formed instruction has its first bad operand at `ra`, or a legal `ra` and a bad `rb`: no format has more
register operands (R53). -/
theorem illFormed_cases {i : Instr} (h : i.wellFormed = false) :
    (∃ b rest, i.registerOperands = b :: rest ∧ b.toNat > 7) ∨
    (∃ a b, i.registerOperands = [a, b] ∧ a.toNat ≤ 7 ∧ b.toNat > 7) := by
  rw [Instr.wellFormed] at h
  match hi : i.registerOperands, h with
  | [], h => cases h
  | a :: rest, h =>
    by_cases ha : a.toNat > 7
    · exact .inl ⟨a, rest, rfl, ha⟩
    · match rest, h with
      | [], h => simp at h; omega
      | [b], h => exact .inr ⟨a, b, rfl, by omega, by simp at h; omega⟩
      | b :: c :: l, _ =>
        have hle := registerOperands_length_le i
        have hle' := operandBytes_length_le i
        rw [hi] at hle
        simp only [List.length_cons] at hle
        omega

/-- Settles O41: the first bad operand is `ra` or, after a legal `ra`, `rb`, and each format finds it (`exec_badA`,
`exec_badB`); LDI's immediate is no register operand. -/
theorem badRegisterOperandRaises : Obligations.BadRegisterOperandRaises := by
  refine fun i s => ⟨fun hill => ?_, ?_⟩
  · obtain ⟨b, rest, hi, hb⟩ | ⟨a, b, hi, ha, hb⟩ := illFormed_cases hill
    · exact ⟨[], b, rest, hi, nofun, hb, exec_badA hi hb s⟩
    · exact ⟨[a], b, [], hi, by simpa using ha, hb, exec_badB hi ha hb s⟩
  · rintro ra imm rfl
    simp [Instr.wellFormed, Instr.registerOperands]

end Sys2Proof.Machine

/-! PROOFS. The fault priority (spec/60_exceptions.md R153, R156): a step against the ten tests of `faultTests`. -/

namespace Sys2Proof.Machine

/-- An operand byte that names a register names the one `regNamed` reads. -/
@[simp] theorem State.regNamed_regByte (s : State) (r : RegIdx) : s.regNamed (regByte r) = s.reg r := by
  have hr : r.val < s.regs.toList.length := by simp
  rw [State.regNamed, regByte_toNat, List.getD_eq_getElem _ _ hr]
  simp [State.reg]

@[simp] theorem State.regNamed_seven (s : State) : s.regNamed 7#8 = s.sp := s.regNamed_regByte 7

/-- Register operand bytes are as distinct as the registers they name. -/
@[simp] theorem regByte_eq_seven_iff (r : RegIdx) : regByte r = 7#8 ↔ r = 7 := by
  constructor
  · intro h
    have := congrArg BitVec.toNat h
    rw [regByte_toNat] at this
    exact Fin.ext this
  · rintro rfl; rfl

/-! ### The tests of the fetch -/

theorem mem_opcodeBytes_of_lookup {op : Byte} {row : OpcodeRow} (h : lookupOpcode op = some row) :
    op ∈ opcodeBytes := by
  rw [← lookupOpcode_isSome_iff, h]; rfl

/-- Where the fetch raises a fault, the first of the first four tests that holds reports it (R72, R75). -/
theorem firstFault_of_fetch_error {s : State} {f : FaultRecord} (h : fetchInstr s = .error f) :
    firstFault s = some f := by
  obtain ⟨hpc, e⟩ | ⟨hpc, hl, e⟩ | ⟨row, hpc, hl, ⟨hn, hpc1, e⟩ | ⟨hn, hpc1, hpc2, e⟩ | ⟨-, -, e⟩⟩ :=
    fetchInstr_cases s
  all_goals rw [h] at e; cases e
  · simp [firstFault, faultTests, hpc]
  · have hop : s.codeByte 0 ∉ opcodeBytes := fun hop => by simp [← lookupOpcode_isSome_iff, hl] at hop
    simp [firstFault, faultTests, hpc, hop]
  · have hpc255 : s.pc.toNat = 255 := by omega
    rw [operandCount] at hn
    simp [firstFault, faultTests, mem_opcodeBytes_of_lookup hl, hpc255, hn]
  · have hpc254 : s.pc.toNat = 254 := by omega
    rw [operandCount] at hn
    simp [firstFault, faultTests, mem_opcodeBytes_of_lookup hl, hpc254, hn]

/-- The tests of a fetched instruction: the first four do not hold. -/
theorem firstFault_of_fetch {s : State} {i : Instr} (h : fetchInstr s = .ok i) :
    firstFault s = (((faultTests s).drop 4).find? fun test => test.1).map fun test => test.2 := by
  obtain ⟨hop, hpc, -⟩ := fetchInstr_ok h
  obtain ⟨row, hl, -⟩ := lookupOpcode_opcodeByte i
  have hmem : s.codeByte 0 ∈ opcodeBytes := by rw [hop]; exact mem_opcodeBytes_of_lookup hl
  have hn : (s.codeByte 0).toNat / 64 = i.operandBytes.length := by rw [← operandCount_opcodeByte, hop]; rfl
  have h0 : ¬ s.pc.toNat > 255 := by omega
  have h1 : ¬ ((s.codeByte 0).toNat / 64 ≥ 1 ∧ s.pc.toNat + 1 > 255) := by omega
  have h2 : ¬ ((s.codeByte 0).toNat / 64 = 2 ∧ s.pc.toNat + 2 > 255) := by omega
  simp only [firstFault, faultTests, List.drop, List.find?, decide_eq_false h0, decide_eq_false h1,
    decide_eq_false h2, decide_eq_false (not_not_intro hmem)]

/-! ### The tests of the register operands -/

theorem firstFault_of_badA {s : State} {i : Instr} (h : fetchInstr s = .ok i) {b : Byte} {rest : List Byte}
    (hi : i.registerOperands = b :: rest) (hb : b.toNat > 7) :
    firstFault s = some (.addressOutOfRange b.toNat s.pc .regIndexA) := by
  obtain ⟨hn, h1⟩ := codeByte_of_registerOperands_cons h hi
  rw [operandCount] at hn
  simp [firstFault_of_fetch h, faultTests, hn, h1, hb]

theorem firstFault_of_badB {s : State} {i : Instr} (h : fetchInstr s = .ok i) {a b : Byte}
    (hi : i.registerOperands = [a, b]) (ha : a.toNat ≤ 7) (hb : b.toNat > 7) :
    firstFault s = some (.addressOutOfRange b.toNat s.pc .regIndexB) := by
  obtain ⟨hn, hldi, h1, h2⟩ := codeByte_of_registerOperands_pair h hi
  rw [operandCount] at hn
  have hldi : s.codeByte 0 ≠ 130#8 := hldi
  simp [firstFault_of_fetch h, faultTests, hn, hldi, h1, h2, hb, Nat.not_lt.mpr ha]

/-- The tests of a fetched instruction with legal operands: the first six do not hold. -/
theorem firstFault_of_wellFormed {s : State} {i : Instr} (h : fetchInstr s = .ok i) (hwf : i.wellFormed = true) :
    firstFault s = (((faultTests s).drop 6).find? fun test => test.1).map fun test => test.2 := by
  have hlegal {b : Byte} (hb : b ∈ i.registerOperands) : ¬ b.toNat > 7 :=
    Nat.not_lt.mpr (of_decide_eq_true (List.all_eq_true.mp hwf b hb))
  have ha : ¬ ((s.codeByte 0).toNat / 64 ≥ 1 ∧ (s.codeByte 1).toNat > 7) := fun ⟨hn, hb⟩ =>
    hlegal (codeByte_one_mem_registerOperands h hn) hb
  have hb : ¬ ((s.codeByte 0).toNat / 64 = 2 ∧ s.codeByte 0 ≠ 0x82 ∧ (s.codeByte 2).toNat > 7) :=
    fun ⟨hn, hldi, hb⟩ => hlegal (codeByte_two_mem_registerOperands h hn hldi) hb
  simp only [firstFault_of_fetch h, faultTests, List.drop, List.find?, decide_eq_false ha, decide_eq_false hb]

/-! ### The tests of the handlers -/

/-- An instruction of a register's own operand bytes is well-formed. -/
theorem wellFormed_of_regBytes {i : Instr} (h : ∀ b ∈ i.registerOperands, ∃ r, b = regByte r) :
    i.wellFormed = true := by
  refine List.all_eq_true.mpr fun b hb => decide_eq_true ?_
  obtain ⟨r, rfl⟩ := h b hb
  rw [regByte_toNat]
  omega

/-- MOD, PUSH, POP, CALL and RET alone have a test of their own. -/
theorem firstFault_of_untested {s : State} {i : Instr} (h : fetchInstr s = .ok i) (hwf : i.wellFormed = true)
    (hop : i.opcodeByte ∉ ([0xA4, 0x45, 0x46, 0x50, 0x11] : List Byte)) : firstFault s = none := by
  obtain ⟨hcode, -, -⟩ := fetchInstr_ok h
  rw [← hcode] at hop
  simp at hop
  simp [firstFault_of_wellFormed h hwf, faultTests, hop]

/-- The tests of the handlers, on the opcode of a fetched instruction with legal operands (R152, R153). -/
theorem firstFault_mod {s : State} {a b : RegIdx} (h : fetchInstr s = .ok (.mod (regByte a) (regByte b))) :
    firstFault s = if s.reg b = 0 then some (.divisionByZero s.pc) else none := by
  have hwf := wellFormed_of_regBytes (i := .mod (regByte a) (regByte b)) (by simp [Instr.registerOperands])
  obtain ⟨hop, -, -⟩ := fetchInstr_ok h
  obtain ⟨-, -, -, h2⟩ := codeByte_of_registerOperands_pair h rfl
  rw [firstFault_of_wellFormed h hwf]
  by_cases h0 : s.reg b = 0#8 <;>
    simp [faultTests, hop, Instr.opcodeByte, h2, h0]

theorem firstFault_push {s : State} {a : RegIdx} (h : fetchInstr s = .ok (.push (regByte a))) :
    firstFault s = if s.sp = 0 then some (.addressOutOfRange (-1) s.pc .spBelowZero) else none := by
  have hwf := wellFormed_of_regBytes (i := .push (regByte a)) (by simp [Instr.registerOperands])
  obtain ⟨hop, -, -⟩ := fetchInstr_ok h
  rw [firstFault_of_wellFormed h hwf]
  by_cases h0 : s.sp = 0#8 <;>
    simp [faultTests, hop, Instr.opcodeByte, h0]

theorem firstFault_pop {s : State} {a : RegIdx} (h : fetchInstr s = .ok (.pop (regByte a))) :
    firstFault s = if (if a = 7 then s.mem.read s.sp.toNat else s.sp) = 255 then
      some (.addressOutOfRange 256 s.pc .spAbove255) else none := by
  have hwf := wellFormed_of_regBytes (i := .pop (regByte a)) (by simp [Instr.registerOperands])
  obtain ⟨hop, -, -⟩ := fetchInstr_ok h
  obtain ⟨-, h1⟩ := codeByte_of_registerOperands_cons h rfl
  rw [firstFault_of_wellFormed h hwf]
  by_cases h0 : (if a = 7 then s.mem.read s.sp.toNat else s.sp) = 255#8 <;>
    simp [faultTests, hop, Instr.opcodeByte, h1, h0]

theorem firstFault_call {s : State} {a : RegIdx} (h : fetchInstr s = .ok (.call (regByte a))) :
    firstFault s = if s.sp = 0 then some (.addressOutOfRange (-1) s.pc .spBelowZero)
      else if s.pc.toNat = 254 then some (.addressOutOfRange 256 s.pc .returnAddress) else none := by
  have hwf := wellFormed_of_regBytes (i := .call (regByte a)) (by simp [Instr.registerOperands])
  obtain ⟨hop, -, -⟩ := fetchInstr_ok h
  rw [firstFault_of_wellFormed h hwf]
  by_cases h0 : s.sp = 0#8 <;> by_cases hpc : s.pc.toNat = 254 <;>
    simp [faultTests, hop, Instr.opcodeByte, h0, hpc]

theorem firstFault_ret {s : State} (h : fetchInstr s = .ok .ret) :
    firstFault s = if s.sp = 255 then some (.addressOutOfRange 256 s.pc .spAbove255) else none := by
  obtain ⟨hop, -, -⟩ := fetchInstr_ok h
  rw [firstFault_of_wellFormed h rfl]
  by_cases h0 : s.sp = 255#8 <;>
    simp [faultTests, hop, Instr.opcodeByte, h0]

/-! ### A step and its first failing test -/

/-- The instruction fetched against the tests: it completes and no test holds, or it raises the fault of the first
that does. -/
theorem effect_firstFault {s t : State} {i : Instr} (hr : s.rs = .running) (hf : fetchInstr s = .ok i)
    (h : Effect s i t) :
    (firstFault s = none ∧ t.rs ≠ .faulted) ∨ ∃ f, firstFault s = some f ∧ t = raise f s := by
  have running {u : State} (hu : u.rs = s.rs) : u.rs ≠ .faulted := by rw [hu, hr]; decide
  cases h with
  | hlt => exact .inl ⟨firstFault_of_untested hf rfl (by decide), nofun⟩
  | ldi | prn | add | mul | or | xor | not | shl | shr | cmp | jmp | jeqTaken | jeqNot | jneTaken | jneNot =>
    refine .inl ⟨firstFault_of_untested hf (wellFormed_of_regBytes ?_) ?_, running rfl⟩
    · simp [Instr.registerOperands]
    · simp [Instr.opcodeByte]
  | mod a b h => exact .inl ⟨by rw [firstFault_mod hf, if_neg h], running rfl⟩
  | push a h => exact .inl ⟨by rw [firstFault_push hf, if_neg h], running rfl⟩
  | pop a h => exact .inl ⟨by rw [firstFault_pop hf, if_neg h], running rfl⟩
  | call a h hp => exact .inl ⟨by rw [firstFault_call hf, if_neg h, if_neg (by omega)], running rfl⟩
  | ret h => exact .inl ⟨by rw [firstFault_ret hf, if_neg h], running rfl⟩
  | badA i b rest hi hb => exact .inr ⟨_, firstFault_of_badA hf hi hb, rfl⟩
  | badB i a b hi ha hb => exact .inr ⟨_, firstFault_of_badB hf hi ha hb, rfl⟩
  | modZero a b h => exact .inr ⟨_, by rw [firstFault_mod hf, if_pos h], rfl⟩
  | pushLow a h => exact .inr ⟨_, by rw [firstFault_push hf, if_pos h], rfl⟩
  | popHigh a h => exact .inr ⟨_, by rw [firstFault_pop hf, if_pos h], rfl⟩
  | callLow a h => exact .inr ⟨_, by rw [firstFault_call hf, if_pos h], rfl⟩
  | callReturn a h hp =>
    obtain ⟨-, hlen, -⟩ := fetchInstr_ok hf
    have hpc : s.pc.toNat = 254 := by simp [Instr.operandBytes] at hlen; omega
    exact .inr ⟨_, by rw [firstFault_call hf, if_neg h, if_pos hpc], rfl⟩
  | retHigh h => exact .inr ⟨_, by rw [firstFault_ret hf, if_pos h], rfl⟩

/-- Everything a step can do, by the ten tests: none holds and an instruction was fetched and completed, or the fault
of the first that holds is raised (R156). -/
theorem step_firstFault_cases {s t : State} (h : step s = .next t) :
    (firstFault s = none ∧ t.rs ≠ .faulted ∧ ∃ i, fetchInstr s = .ok i ∧ Effect s i t) ∨
    ∃ f, firstFault s = some f ∧ t = raise f s := by
  obtain ⟨hr, ⟨f, hf, rfl⟩ | ⟨i, hf, e⟩⟩ := step_cases h
  · exact .inr ⟨f, firstFault_of_fetch_error hf, rfl⟩
  · obtain ⟨hnone, ht⟩ | hraise := effect_firstFault hr hf (exec_effect e)
    · exact .inl ⟨hnone, ht, i, hf, exec_effect e⟩
    · exact .inr hraise

/-- A step that ends FAULTED has raised the fault of the first test that holds. -/
theorem step_faulted {s t : State} (h : step s = .next t) (ht : t.rs = .faulted) :
    ∃ f, firstFault s = some f ∧ t = raise f s := by
  obtain ⟨-, hne, -⟩ | hraise := step_firstFault_cases h
  · exact absurd ht hne
  · exact hraise

/-- A record reported is that of a test in the list, which holds. -/
theorem mem_faultTests_of_firstFault {s : State} {f : FaultRecord} (h : firstFault s = some f) :
    (true, f) ∈ faultTests s := by
  obtain ⟨⟨b, g⟩, hfind, rfl⟩ := Option.map_eq_some_iff.mp h
  have hb : b = true := List.find?_some hfind
  exact hb ▸ List.mem_of_find?_eq_some hfind

/-- Every record of the list names the PC (R151 to R153). -/
theorem firstFault_at {s : State} {f : FaultRecord} (h : firstFault s = some f) : f.at = s.pc := by
  have hall : ∀ test ∈ faultTests s, test.2.at = s.pc := by simp [faultTests, FaultRecord.at]
  exact hall _ (mem_faultTests_of_firstFault h)

/-- Settles O43: by the two ways a step can end (`step_firstFault_cases`). -/
theorem stepReportsTheFirstFailingTest : Obligations.StepReportsTheFirstFailingTest := by
  intro s t h
  obtain ⟨hnone, hne, -⟩ | ⟨f, hsome, rfl⟩ := step_firstFault_cases h
  · exact ⟨fun _ => hne, by simp [hnone]⟩
  · exact ⟨by simp [hsome], fun g hg => by rw [hsome] at hg; cases hg; rfl⟩

/-- Settles O42: a faulting step has raised the record of a test (`step_faulted`), which names the PC. -/
theorem faultingStepChangesNothingElse : Obligations.FaultingStepChangesNothingElse := by
  intro s t h ht
  obtain ⟨f, hsome, rfl⟩ := step_faulted h ht
  exact ⟨f, firstFault_at hsome, rfl⟩

/-- Settles O44: the record is that of a test that holds (`mem_faultTests_of_firstFault`); the list has eight that
record AddressOutOfRange, one for each cause. -/
theorem outOfRangeValuesAreTheTabledOnes : Obligations.OutOfRangeValuesAreTheTabledOnes := by
  intro s t v p c hpc h hfault ht
  obtain ⟨f, hsome, rfl⟩ := step_faulted h ht
  cases hfault
  have hmem := mem_faultTests_of_firstFault hsome
  simp only [faultTests, List.mem_cons, List.not_mem_nil, or_false, Prod.mk.injEq, true_eq_decide_iff,
    FaultRecord.addressOutOfRange.injEq, reduceCtorEq, and_false, false_or] at hmem
  have h1 := (s.codeByte 1).isLt
  have h2 := (s.codeByte 2).isLt
  obtain ⟨h, rfl, -, rfl⟩ | ⟨-, rfl, -, rfl⟩ | ⟨-, rfl, -, rfl⟩ | ⟨h, rfl, -, rfl⟩ | ⟨h, rfl, -, rfl⟩ |
    ⟨-, rfl, -, rfl⟩ | ⟨-, rfl, -, rfl⟩ | ⟨-, rfl, -, rfl⟩ := hmem <;> simp <;> omega

end Sys2Proof.Machine

/-! PROOFS. The PC and the run state after a step (spec/10_state.md R15, R16, R21, R23). -/

namespace Sys2Proof.Machine

/-! ### The PC -/

/-- An instruction that raises no fault leaves the PC of the table of R16. -/
theorem effect_pc {s t : State} {i : Instr} (h : Effect s i t) (ht : t.rs ≠ .faulted) : t.pc = pcAfter i s := by
  have flag {b : Bool} (hE : s.flagE = b) : s.fl.getLsbD 0 = b := hE
  cases h with
  | jmp a => simp [pcAfter]
  | jeqTaken a hE | jneTaken a hE => rw [pcAfter, flag hE, State.regNamed_regByte]; rfl
  | jeqNot a hE | jneNot a hE => rw [pcAfter, flag hE]; rfl
  | call a => simp [pcAfter, State.reg_setReg]
  | ret => simp [pcAfter]
  | badA | badB | modZero | pushLow | callLow | callReturn | popHigh | retHigh => exact absurd rfl ht
  | _ => rfl

/-- Settles O45: a faulting step keeps the PC (`step_faulted`), and any other runs the instruction the bytes at PC
decode to (`decode_of_fetch`), which leaves the PC of the table (`effect_pc`). -/
theorem pcAfterEveryInstruction : Obligations.PcAfterEveryInstruction := by
  intro s t h
  obtain ⟨-, hne, i, hf, hrun⟩ | ⟨f, -, rfl⟩ := step_firstFault_cases h
  · obtain ⟨rest, hd⟩ := decode_of_fetch hf
    exact ⟨fun ht => absurd ht hne, fun _ => ⟨i, rest, hd, effect_pc hrun hne⟩⟩
  · exact ⟨fun _ => rfl, fun hne => absurd rfl hne⟩

/-- PC arithmetic past the bytes of a fetched instruction does not wrap (R15). -/
theorem toNat_pc_add {pc : PcWord} {n : Nat} (h : pc.toNat + n ≤ 256) :
    (pc + BitVec.ofNat 9 n).toNat = pc.toNat + n := by
  rw [BitVec.toNat_add, BitVec.toNat_ofNat]
  omega

/-- The table of R16 never leads past 256. -/
theorem pcAfter_le {s : State} {i : Instr} (h : s.pc.toNat + i.operandBytes.length ≤ 255) :
    (pcAfter i s).toNat ≤ 256 := by
  have byte (v : Byte) : (v.setWidth 9).toNat ≤ 256 := by
    have := v.isLt
    rw [toNat_setWidth_nine]; omega
  have advance {n : Nat} (hn : s.pc.toNat + n ≤ 255) : (s.pc + BitVec.ofNat 9 (n + 1)).toNat ≤ 256 := by
    rw [toNat_pc_add (by omega)]; omega
  cases i with
  | hlt => exact Nat.le_of_lt (Nat.lt_succ_of_le h)
  | ldi | add | mul | mod | or | xor | shl | shr | cmp | prn | not | push | pop => exact advance h
  | jmp | call | ret => exact byte _
  | jeq =>
    rw [pcAfter]
    split
    · exact byte _
    · exact advance h
  | jne =>
    rw [pcAfter]
    split
    · exact advance h
    · exact byte _

/-- From a PC of at most 256 a step leaves one of at most 256 (R15). -/
theorem step_pc_le {s t : State} (hpc : s.pc.toNat ≤ 256) (h : step s = .next t) : t.pc.toNat ≤ 256 := by
  obtain ⟨-, hne, i, hf, hrun⟩ | ⟨f, -, rfl⟩ := step_firstFault_cases h
  · obtain ⟨-, hlen, -⟩ := fetchInstr_ok hf
    rw [effect_pc hrun hne]
    exact pcAfter_le hlen
  · exact hpc

/-- Which instructions take the default advance, by their opcode: all but HLT, CALL, RET, JMP and the jumps taken
(R79). -/
theorem takesDefaultAdvance_of_opcode {i : Instr} {s : State}
    (hop : i.opcodeByte ∉ ([0x01, 0x50, 0x11, 0x54] : List Byte))
    (hjeq : i.opcodeByte = 0x55 → s.fl.getLsbD 0 = false) (hjne : i.opcodeByte = 0x56 → s.fl.getLsbD 0 = true) :
    takesDefaultAdvance i s = true := by
  cases i with
  | hlt | call | ret | jmp => simp [Instr.opcodeByte] at hop
  | jeq => rw [takesDefaultAdvance, hjeq rfl]; rfl
  | jne => exact hjne rfl
  | _ => rfl

/-- Settles O46: the bound is `step_pc_le`; a running machine has raised no fault and run no HLT, so what it ran takes
the default advance (`effect_defaultAdvance`), which stays within the bytes fetched. -/
theorem pcNeverWraps : Obligations.PcNeverWraps := by
  refine fun s t hpc h => ⟨step_pc_le hpc h, fun ht hop hjeq hjne => ?_⟩
  obtain ⟨-, -, i, hf, hrun⟩ | ⟨f, -, rfl⟩ := step_firstFault_cases h
  · obtain ⟨hcode, hlen, -⟩ := fetchInstr_ok hf
    have hhlt : i.opcodeByte ≠ 0x01 := by
      obtain ⟨f, rfl⟩ | ⟨-, hrs⟩ := effect_raises_or_completes hrun
      · cases ht
      · intro hop
        rw [if_pos hop, ht] at hrs
        cases hrs
    rw [hcode] at hop hjeq hjne
    have hadv := takesDefaultAdvance_of_opcode (List.not_mem_cons_of_ne_of_not_mem hhlt hop) hjeq hjne
    rw [effect_defaultAdvance hrun hadv ht, operandCount_opcodeByte, toNat_pc_add (by omega),
      ← operandCount_of_fetch hf, operandCount]
    omega
  · cases ht

/-! ### The run state and the output -/

/-- Settles O48: only PRN emits, its register's byte, and a fault emits nothing. -/
theorem onlyPrnEmits : Obligations.OnlyPrnEmits := by
  intro s t h
  obtain ⟨-, ⟨f, -, rfl⟩ | ⟨i, hf, e⟩⟩ := step_cases h
  · exact .inl rfl
  · cases exec_effect e with
    | prn a =>
      obtain ⟨hop, -, -⟩ := fetchInstr_ok hf
      obtain ⟨-, h1⟩ := codeByte_of_registerOperands_cons hf rfl
      exact .inr ⟨hop, a, h1, rfl⟩
    | _ => exact .inl rfl

/-- Settles O49: an instruction that completes halts exactly if it is HLT and adds no record; a fault raised is no
HLT's, whose one byte is fetched from any address up to 255 (`fetchInstr_of_hltByte`). -/
theorem runStateTransitions : Obligations.RunStateTransitions := by
  intro s t h hfault hpc
  obtain ⟨hr, -⟩ := step_cases h
  refine ⟨hr, ?_⟩
  obtain ⟨-, hne, i, hf, hrun⟩ | ⟨f, hsome, rfl⟩ := step_firstFault_cases h
  · obtain ⟨hop, -, -⟩ := fetchInstr_ok hf
    obtain ⟨f, rfl⟩ | ⟨hrec, hrs⟩ := effect_raises_or_completes hrun
    · exact absurd rfl hne
    · rw [hop, hrs, hrec, hfault, hr]
      by_cases hhlt : i.opcodeByte = 0x01
      · rw [if_pos hhlt]; simp [hhlt]
      · rw [if_neg hhlt]; exact ⟨⟨nofun, fun hop => absurd hop hhlt⟩, by simp⟩
  · have hop : s.codeByte 0 ≠ 0x01 := fun hop => by
      rw [step_of_fetch_ok hr (fetchInstr_of_hltByte hpc hop)] at h
      cases h
    exact ⟨⟨nofun, fun hop' => absurd hop' hop⟩, by simp⟩

end Sys2Proof.Machine

/-! PROOFS. The invariant (spec/10_state.md, 60_exceptions.md): at reset, at launch and after every step. -/

namespace Sys2Proof.Machine

/-- Every instruction keeps the canonical form: a store is at a byte's address (R30, R44). -/
theorem effect_mem_wf {s t : State} {i : Instr} (h : Effect s i t) (hwf : s.mem.wf = true) : t.mem.wf = true := by
  obtain ⟨hmem, -⟩ | ⟨b, -, -, -, hmem⟩ := effect_mem_cases h
  · rwa [hmem]
  · rw [hmem]
    exact Memory.write_wf hwf (s.sp - 1).isLt b

/-- The tests look at nothing that raising a fault changes. -/
theorem firstFault_raise (f : FaultRecord) (s : State) : firstFault (raise f s) = firstFault s := rfl

/-- Settles O57: an instruction that completes keeps memory canonical (`effect_mem_wf`) and the record empty; a fault
raised is that of the first failing test, which is the same test afterwards (`firstFault_raise`). -/
theorem stepKeepsTheInvariant : Obligations.StepKeepsTheInvariant := by
  rintro s t ⟨hmem, hpc, hrecord, -⟩ h
  have hpc' := step_pc_le hpc h
  obtain ⟨hr, -⟩ := step_cases h
  obtain ⟨-, hne, i, -, hrun⟩ | ⟨f, hsome, rfl⟩ := step_firstFault_cases h
  · refine ⟨effect_mem_wf hrun hmem, hpc', fun _ => ?_, fun ht => absurd ht hne⟩
    obtain ⟨f, rfl⟩ | ⟨hfault, -⟩ := effect_raises_or_completes hrun
    · exact absurd rfl hne
    · rw [hfault]
      exact hrecord (by rw [hr]; decide)
  · refine ⟨hmem, hpc', fun hne => absurd rfl hne, fun _ => ⟨nofun, ?_⟩⟩
    rw [firstFault_raise, hsome, raise_fault]

/-- A reset state with a canonical memory meets the invariant, whatever `FL_RESET` (R26). -/
theorem resetWith_setMem_inv (f : Byte) {m : Memory} (h : m.wf = true) : ((State.resetWith f).setMem m).Inv :=
  ⟨h, Nat.zero_le 256, fun _ => rfl, nofun⟩

/-- Settles O55: the empty memory is canonical. -/
theorem resetMeetsTheInvariant : Obligations.ResetMeetsTheInvariant :=
  resetWith_setMem_inv Config.flReset rfl

theorem launchWith_of_length_le {image : List Byte} (h : image.length ≤ 256) (f : Byte) :
    launchWith f image = .next ((State.resetWith f).setMem (storeBytes 0 image [])) :=
  if_neg (Nat.not_lt.mpr h)

theorem launchWith_of_length_gt {image : List Byte} (h : 256 < image.length) (f : Byte) :
    launchWith f image = .refused (.imageTooLong image.length) :=
  if_pos h

/-- Settles O56: a launch that is not refused is a reset with the image stored, all below 256 (`storeBytes_wf`). -/
theorem launchMeetsTheInvariant : Obligations.LaunchMeetsTheInvariant := by
  intro f image s h
  by_cases hlen : image.length ≤ 256
  · rw [launchWith_of_length_le hlen] at h
    cases h
    exact resetWith_setMem_inv f (storeBytes_wf rfl (by rw [Config.memSize]; omega))
  · rw [launchWith_of_length_gt (by omega)] at h
    cases h

end Sys2Proof.Machine

/-! PROOFS. Memory as a whole (spec/20_memory.md section 1, 70_reset_and_hazards.md section 1): the load, the two
bounds-checked primitives, and that the canonical form is one. -/

namespace Sys2Proof.Machine

/-- Reading after bytes were stored at ascending addresses: a byte stored, or what was there (R181). -/
theorem read_storeBytes {a : Nat} {bs : List Byte} {m : Memory} (h : m.wf = true) (ha : a + bs.length ≤ 256) (x : Nat) :
    (storeBytes a bs m).read x = if a ≤ x ∧ x < a + bs.length then bs.getD (x - a) 0 else m.read x := by
  induction bs generalizing a m with
  | nil => rw [if_neg (by rw [List.length_nil]; omega)]; rfl
  | cons b bs ih =>
    rw [List.length_cons] at ha ⊢
    rw [storeBytes, ih (Memory.write_wf h (by rw [Config.memSize]; omega) b) (by omega)]
    by_cases hx : x = a
    · subst hx
      rw [if_neg (by omega), if_pos (by omega), Memory.read_write_same h, Nat.sub_self, List.getD_cons_zero]
    · rw [Memory.read_write_other m b hx]
      by_cases hin : a + 1 ≤ x ∧ x < a + 1 + bs.length
      · rw [if_pos hin, if_pos (by omega), show x - a = (x - (a + 1)) + 1 by omega, List.getD_cons_succ]
      · rw [if_neg hin, if_neg (by omega)]

/-- The memory of a launch reads as the image, and 0 past its end (R181). -/
theorem read_storeBytes_zero {image : List Byte} (h : image.length ≤ 256) (a : Nat) :
    (storeBytes 0 image []).read a = image.getD a 0 := by
  rw [read_storeBytes rfl (by omega)]
  split
  · rfl
  · rw [List.getD_eq_default _ _ (by omega)]; rfl

/-- Settles O2: the launch by the image's length; an empty image leaves 0x00 at address 0, an opcode of no row. -/
theorem launchCopiesTheImage : Obligations.LaunchCopiesTheImage := by
  refine fun f image => ⟨fun h => ?_, fun h => launchWith_of_length_gt h f, ?_⟩
  · exact ⟨storeBytes 0 image [], launchWith_of_length_le h f, read_storeBytes_zero h⟩
  · rintro rfl
    exact ⟨_, launchWith_of_length_le (by decide) f, step_of_lookup_none rfl (Nat.zero_le 255) rfl⟩

/-- Settles O53: the two primitives by their bounds, with the laws of reading after a write. -/
theorem memoryPrimitivesCheckBounds : Obligations.MemoryPrimitivesCheckBounds := by
  refine fun addr c v s hwf => ⟨?_, fun h => ⟨memRead_outOfRange h c s, if_neg (by omega)⟩⟩
  rintro a rfl ha
  have hmem : a < Config.memSize := Nat.lt_succ_of_le ha
  exact ⟨memRead_inRange ha c s, _, if_pos (by omega), rfl, Memory.write_wf hwf hmem v,
    Memory.read_write_same hwf a v, fun b hb => Memory.read_write_other s.mem v hb⟩

/-- What being canonical from `lo` up says of the first cell and the rest. -/
theorem Memory.wfFrom_cons {lo k : Nat} {v : Byte} {m : Memory} :
    Memory.wfFrom lo ((k, v) :: m) = true ↔
      lo ≤ k ∧ k < Config.memSize ∧ v ≠ Config.memReset ∧ Memory.wfFrom (k + 1) m = true := by
  simp [Memory.wfFrom, and_assoc]

/-- A canonical memory reads at its first address as nothing canonical above that address does. -/
theorem Memory.read_head_ne {lo k : Nat} {v : Byte} {m n : Memory} (hm : Memory.wfFrom lo ((k, v) :: m) = true)
    (hn : Memory.wfFrom (k + 1) n = true) : k < 256 ∧ Memory.read ((k, v) :: m) k ≠ n.read k := by
  obtain ⟨-, hk, hv, -⟩ := Memory.wfFrom_cons.mp hm
  rw [Memory.read, if_pos rfl, Memory.read_below hn (Nat.lt_succ_self k)]
  exact ⟨hk, hv⟩

/-- Memories canonical from the same address up that read alike are equal: the first cells are, or one of them would
be read in one memory only. -/
theorem Memory.eq_of_read_eq {lo : Nat} {m n : Memory} (hm : Memory.wfFrom lo m = true)
    (hn : Memory.wfFrom lo n = true) (h : ∀ a < 256, m.read a = n.read a) : m = n := by
  induction m generalizing lo n with
  | nil =>
    match n, hn with
    | [], _ => rfl
    | (k, v) :: n, hn =>
      obtain ⟨hk, hne⟩ := Memory.read_head_ne (n := []) hn rfl
      exact absurd (h k hk).symm hne
  | cons c m ih =>
    obtain ⟨k, v⟩ := c
    match n, hn with
    | [], _ =>
      obtain ⟨hk, hne⟩ := Memory.read_head_ne (n := []) hm rfl
      exact absurd (h k hk) hne
    | (j, w) :: n, hn =>
      obtain ⟨-, hk, hv, hm'⟩ := Memory.wfFrom_cons.mp hm
      obtain ⟨-, hj, hw, hn'⟩ := Memory.wfFrom_cons.mp hn
      obtain hlt | rfl | hgt := Nat.lt_trichotomy k j
      · obtain ⟨-, hne⟩ := Memory.read_head_ne hm (Memory.wfFrom_cons.mpr ⟨hlt, hj, hw, hn'⟩)
        exact absurd (h k hk) hne
      · have hvw : v = w := by simpa [Memory.read] using h k hk
        rw [hvw, ih hm' hn' fun a ha => ?_]
        obtain hle | hgt := Nat.lt_or_ge a (k + 1)
        · rw [Memory.read_below hm' hle, Memory.read_below hn' hle]
        · have hne : a ≠ k := by omega
          simpa [Memory.read, hne] using h a ha
      · obtain ⟨-, hne⟩ := Memory.read_head_ne hn (Memory.wfFrom_cons.mpr ⟨hgt, hk, hv, hm'⟩)
        exact absurd (h j hj).symm hne

/-- Settles O54: from address 0 up (`Memory.eq_of_read_eq`). -/
theorem canonicalMemoriesAreExtensional : Obligations.CanonicalMemoriesAreExtensional :=
  fun _ _ => Memory.eq_of_read_eq

end Sys2Proof.Machine

/-! PROOFS. The exact next states of the instructions not settled above (spec/41_hlt_ldi_prn.md, 42_alu.md,
43_stack.md, 44_jumps.md), each by a rule of `Effect`. -/

namespace Sys2Proof.Machine

/-! ### Reset and the end of a run -/

/-- R0 to R6 are 0 after reset, R7 is `SP_RESET` (R26). -/
theorem resetWith_reg (f : Byte) (r : RegIdx) : (State.resetWith f).reg r = if r = 7 then 0xF4 else 0 := by
  refine (State.reg_setReg { State.resetWith f with regs := Vector.replicate 8 0 } 7 r 0xF4).trans ?_
  simp [State.reg]

/-- Settles O1: field by field; the registers are `resetWith_reg`. -/
theorem resetLeavesTheTabledValues : Obligations.ResetLeavesTheTabledValues :=
  ⟨rfl, fun f => ⟨fun _ => rfl, resetWith_reg f, rfl, rfl, rfl, rfl, rfl⟩⟩

/-- Settles O3: by the run state; no fault kind has the status 0 (`faultStatus_ne_zero`). -/
theorem exitStatusTellsTheEnd : Obligations.ExitStatusTellsTheEnd := by
  refine fun s => ⟨fun h => by rw [exitStatus, h], fun h => by rw [exitStatus, h]; rfl, fun f h hf => ?_⟩
  exact ⟨Config.faultStatus f.kind, by rw [exitStatus, h, hf]; rfl, faultStatus_ne_zero f.kind⟩

/-- Settles O40: every arm is HLT's or a handler run to its end (`exec_answers`). -/
theorem everyInstructionAnswersNextState : Obligations.EveryInstructionAnswersNextState :=
  exec_answers

/-- Settles O31: the six words are encodings (`decode_encode_append`), the two other bytes are in no row. -/
theorem specWordsDecode : Obligations.SpecWordsDecode :=
  ⟨decode_encode_append .hlt [], decode_encode_append (.ldi 7 128) [], decode_encode_append (.mod 2 5) [],
    decode_encode_append (.not 2) [], decode_encode_append (.call 1) [], decode_encode_append (.jne 3) [],
    decode_of_lookup_none rfl [], decode_of_lookup_none rfl [0, 0]⟩

/-! ### PRN and the ALU -/

/-- Settles O6: PRN's rule is the next state. -/
theorem prnEmitsTheRegister : Obligations.PrnEmitsTheRegister :=
  fun a s => ⟨rfl, exec_prn_regByte a s⟩

theorem toNat_aluMod (a b : Byte) : (aluMod a b).toNat = a.toNat % b.toNat := by
  have := Nat.mod_le a.toNat b.toNat
  rw [aluMod, toNat_narrow, Nat.mod_eq_of_lt (by omega)]

theorem toNat_aluShl (a s : Byte) : (aluShl a s).toNat = (a.toNat * 2 ^ s.toNat) % 256 := toNat_narrow _

theorem toNat_aluShr (a s : Byte) : (aluShr a s).toNat = a.toNat / 2 ^ s.toNat := by
  have := Nat.div_le_self a.toNat (2 ^ s.toNat)
  rw [aluShr, toNat_narrow, Nat.mod_eq_of_lt (by omega)]

/-- Shifting left by 8 or more leaves a multiple of 256 (R108). -/
theorem aluShl_of_ge {s : Byte} (h : s.toNat ≥ 8) (a : Byte) : aluShl a s = 0 := by
  apply BitVec.eq_of_toNat_eq
  rw [toNat_aluShl]
  exact Nat.mod_eq_zero_of_dvd (Dvd.dvd.mul_left (pow_dvd_pow 2 h) a.toNat)

/-- Shifting right by 8 or more leaves none of the 8 bits (R109). -/
theorem aluShr_of_ge {s : Byte} (h : s.toNat ≥ 8) (a : Byte) : aluShr a s = 0 := by
  apply BitVec.eq_of_toNat_eq
  rw [toNat_aluShr]
  exact Nat.div_eq_of_lt (a.isLt.trans_le (Nat.pow_le_pow_right (by decide) h))

/-- Settles O9: MOD's two rules, by the divisor. -/
theorem modWritesTheRemainder : Obligations.ModWritesTheRemainder :=
  fun a b s => ⟨rfl, fun h => ⟨aluMod (s.reg a) (s.reg b), toNat_aluMod _ _, (Effect.mod a b h).exec⟩,
    fun h => (Effect.modZero a b h).exec⟩

/-- Settles O13: the byte written is `aluShl` of the operands. -/
theorem shlShiftsByTheWholeByte : Obligations.ShlShiftsByTheWholeByte :=
  fun a b s => ⟨rfl, aluShl (s.reg a) (s.reg b), toNat_aluShl _ _, fun h => aluShl_of_ge h _, (Effect.shl a b).exec⟩

/-- Settles O14: the byte written is `aluShr` of the operands. -/
theorem shrShiftsLogically : Obligations.ShrShiftsLogically :=
  fun a b s => ⟨rfl, aluShr (s.reg a) (s.reg b), toNat_aluShr _ _, fun h => aluShr_of_ge h _, (Effect.shr a b).exec⟩

/-- CMP's byte, for each way two numbers compare: one bit of the three (R17). -/
theorem compareFlags_cases (a b : Byte) :
    (a.toNat = b.toNat ∧ compareFlags a b = 0x01) ∨ (a.toNat > b.toNat ∧ compareFlags a b = 0x02) ∨
    (a.toNat < b.toNat ∧ compareFlags a b = 0x04) := by
  obtain h | h | h := Nat.lt_trichotomy a.toNat b.toNat
  · exact .inr (.inr ⟨h, by rw [compareFlags, if_neg (by omega), if_neg (by omega)]⟩)
  · exact .inl ⟨h, if_pos h⟩
  · exact .inr (.inl ⟨h, by rw [compareFlags, if_neg (by omega), if_pos h]⟩)

/-- Settles O15: CMP's rule, and its byte by the comparison (`compareFlags_cases`). -/
theorem cmpSetsExactlyOneFlag : Obligations.CmpSetsExactlyOneFlag := by
  refine fun a b s => ⟨rfl, _, (Effect.cmp a b).exec, rfl, ?_⟩
  simp only [State.flagE, State.flagG, State.flagL, State.setPc_fl, State.setFl_fl]
  obtain ⟨h, e⟩ | ⟨h, e⟩ | ⟨h, e⟩ := compareFlags_cases (s.reg a) (s.reg b)
  all_goals
    rw [e]
    simp
    omega

/-! ### The stack -/

theorem toNat_sub_one {v : Byte} (h : v ≠ 0) : (v - 1).toNat = v.toNat - 1 := by
  bv_omega

/-- The operand of PUSH and CALL, read after R7 was decremented (R122, R124). -/
theorem reg_setReg_seven (s : State) (a : RegIdx) (v : Byte) :
    (s.setReg 7 v).reg a = if a = 7 then v else s.reg a :=
  s.reg_setReg 7 a v

/-- Settles O16: PUSH's two rules, by the SP. -/
theorem pushDecrementsThenStores : Obligations.PushDecrementsThenStores := by
  refine fun a s => ⟨rfl, fun h => ⟨_, (Effect.push a h).exec, rfl, ?_, fun hwf => ?_⟩,
    fun h => (Effect.pushLow a h).exec⟩
  all_goals simp only [State.setPc_mem, State.setMem_mem, reg_setReg_seven, toNat_sub_one h]
  exact Memory.read_write_same hwf _ _

theorem setReg_setReg_same (s : State) (r : RegIdx) (v w : Byte) : (s.setReg r v).setReg r w = s.setReg r w := by
  simp [State.setReg]

/-- POP of R0 to R6 increments the SP (R123). -/
theorem exec_pop_of_ne_seven {a : RegIdx} {s : State} (ha : a ≠ 7) (h : s.sp ≠ 255) :
    exec (.pop (regByte a)) s =
      .next (((s.setReg a (s.mem.read s.sp.toNat)).setReg 7 (s.sp + 1)).setPc (s.pc + 2)) := by
  rw [(Effect.pop a (by rwa [if_neg ha])).exec, if_neg ha]

/-- POP R7 increments the byte popped into it (R123). -/
theorem exec_pop_seven {s : State} (h : s.mem.read s.sp.toNat ≠ 255) :
    exec (.pop (regByte 7)) s = .next ((s.setReg 7 (s.mem.read s.sp.toNat + 1)).setPc (s.pc + 2)) := by
  rw [(Effect.pop 7 (by rwa [if_pos rfl])).exec, if_pos rfl, setReg_setReg_same]

/-- Settles O17: POP's rules, by the byte that is incremented. -/
theorem popLoadsThenIncrements : Obligations.PopLoadsThenIncrements := by
  refine fun a s => ⟨rfl, exec_pop_of_ne_seven, ?_, fun h => ?_⟩
  · rintro rfl h
    exact exec_pop_seven h
  · refine (Effect.popHigh a ?_).exec
    obtain ⟨ha, h⟩ | ⟨ha, h⟩ := h
    · rwa [if_neg ha]
    · rwa [if_pos ha]

/-- Settles O18: CALL's three rules, by the SP and the PC. -/
theorem callPushesTheReturnAddress : Obligations.CallPushesTheReturnAddress := by
  refine fun a s => ⟨rfl, fun h hp => ⟨_, (Effect.call a h hp).exec, rfl, ?_, fun hwf => ?_, ?_⟩,
    fun h => (Effect.callLow a h).exec, fun h hp => (Effect.callReturn a h (by omega)).exec⟩
  · simp only [State.jumpTo_mem, State.setMem_mem, toNat_sub_one h]; rfl
  · simp only [State.jumpTo_mem, State.setMem_mem, toNat_sub_one h]
    rw [Memory.read_write_same hwf, toNat_narrow]
    omega
  · rw [State.jumpTo_pc, toNat_setWidth_nine, reg_setReg_seven]
    split
    · exact toNat_sub_one h
    · rfl

/-- Settles O19: RET's two rules, by the SP. -/
theorem retJumpsToThePoppedByte : Obligations.RetJumpsToThePoppedByte :=
  ⟨rfl, fun _ => ⟨fun h => ⟨_, (Effect.ret h).exec, rfl, toNat_setWidth_nine _⟩, fun h => (Effect.retHigh h).exec⟩⟩

/-- Settles O23: JEQ's two rules, by bit 0 of `FL`, and the operand check, which is made whatever `FL` is. -/
theorem jeqJumpsWhenEqual : Obligations.JeqJumpsWhenEqual :=
  fun a s => ⟨rfl, fun h => (Effect.jeqTaken a h).exec, fun h => (Effect.jeqNot a h).exec,
    fun _ hb => exec_badA rfl hb s⟩

end Sys2Proof.Machine

/-! PROOFS. Two stack instructions in a row (spec/43_stack.md R127). -/

namespace Sys2Proof.Machine

/-- PUSH completes where the SP is not 0, and leaves its operand at the decremented SP (R122). -/
theorem exec_push_leaves {a : RegIdx} {s : State} (hwf : s.mem.wf = true) (h : s.sp ≠ 0) :
    ∃ t, exec (.push (regByte a)) s = .next t ∧ t.sp = s.sp - 1 ∧
      t.mem.read t.sp.toNat = if a = 7 then s.sp - 1 else s.reg a := by
  have hsp : (s.setReg 7 (s.sp - 1)).reg 7 = s.sp - 1 := State.reg_setReg_same s 7 _
  refine ⟨_, (Effect.push a h).exec, hsp, ?_⟩
  rw [← reg_setReg_seven]
  exact (congrArg (Memory.read _) (congrArg BitVec.toNat hsp)).trans (Memory.read_write_same hwf _ _)

theorem sub_one_ne_255 {v : Byte} (h : v ≠ 0) : v - 1 ≠ 255 := by bv_omega

/-- Settles O20: PUSH leaves its operand at the decremented SP (`exec_push_leaves`), and POP's rules take it from
there. -/
theorem pushThenPopCopiesAndRestoresSp : Obligations.PushThenPopCopiesAndRestoresSp := by
  intro a b s hwf h
  obtain ⟨t, hpush, hsp, htop⟩ := exec_push_leaves (a := a) hwf h
  have hlow : t.sp ≠ 255 := by rw [hsp]; exact sub_one_ne_255 h
  have hback : t.sp + 1 = s.sp := by rw [hsp, BitVec.sub_add_cancel]
  have hpop (hb : b ≠ 7) : ∃ u, exec (.pop (regByte b)) t = .next u ∧ u.reg b = t.mem.read t.sp.toNat ∧ u.sp = s.sp :=
    ⟨_, exec_pop_of_ne_seven hb hlow, (State.reg_setReg_other _ _ hb).trans (State.reg_setReg_same t b _),
      (State.reg_setReg_same _ 7 _).trans hback⟩
  have hpop7 (htop7 : t.mem.read t.sp.toNat ≠ 255) :
      ∃ u, exec (.pop (regByte 7)) t = .next u ∧ u.rs = t.rs ∧ u.sp = t.mem.read t.sp.toNat + 1 :=
    ⟨_, exec_pop_seven htop7, rfl, State.reg_setReg_same t 7 _⟩
  refine ⟨t, hpush, fun ha hb => ?_, fun ha hb => ?_, fun ha hb h255 => ?_, fun ha hb h255 => ?_, fun ha hb => ?_⟩
  · rw [if_neg ha] at htop
    rw [← htop]
    exact hpop hb
  · rw [if_pos ha] at htop
    rw [← htop]
    exact hpop hb
  · rw [if_neg ha] at htop
    subst hb
    rw [← htop] at h255 ⊢
    exact hpop7 h255
  · rw [if_neg ha] at htop
    subst hb
    exact (Effect.popHigh 7 (by rw [if_pos rfl, htop, h255])).exec
  · rw [if_pos ha, ← hsp] at htop
    subst hb
    rw [← htop] at hlow
    rw [← hback, ← htop]
    exact hpop7 hlow

/-- CALL completes where the SP is not 0 and the return address is a byte, which it leaves at the decremented SP
(R124). -/
theorem exec_call_leaves {a : RegIdx} {s : State} (hwf : s.mem.wf = true) (h : s.sp ≠ 0) (hpc : s.pc.toNat ≤ 253) :
    ∃ t, exec (.call (regByte a)) s = .next t ∧ t.sp = s.sp - 1 ∧
      t.mem.read t.sp.toNat = narrow (s.pc.toNat + 2) := by
  have hsp : (s.setReg 7 (s.sp - 1)).reg 7 = s.sp - 1 := State.reg_setReg_same s 7 _
  exact ⟨_, (Effect.call a h hpc).exec, hsp,
    (congrArg (Memory.read _) (congrArg BitVec.toNat hsp)).trans (Memory.read_write_same hwf _ _)⟩

/-- A return address of at most 255 is the same in the PC after a byte has carried it (R124, R125). -/
theorem setWidth_narrow_pc {pc : PcWord} (h : pc.toNat ≤ 253) : (narrow (pc.toNat + 2)).setWidth 9 = pc + 2 := by
  apply BitVec.eq_of_toNat_eq
  rw [toNat_setWidth_nine, toNat_narrow, show pc + 2 = pc + BitVec.ofNat 9 2 from rfl, toNat_pc_add (by omega)]
  omega

/-- Settles O21: RET takes the PC from the byte that CALL left (`exec_call_leaves`) and increments the SP back. -/
theorem callThenRetReturns : Obligations.CallThenRetReturns := by
  intro a s hwf h hpc
  obtain ⟨t, hcall, hsp, htop⟩ := exec_call_leaves (a := a) hwf h hpc
  refine ⟨t, hcall, fun u husp hutop => ?_⟩
  have hlow : u.sp ≠ 255 := by rw [husp, hsp]; exact sub_one_ne_255 h
  refine ⟨_, (Effect.ret hlow).exec, ?_, ?_⟩
  · rw [State.jumpTo_pc, husp, hutop, htop, setWidth_narrow_pc hpc]
  · exact (State.reg_setReg_same u 7 _).trans (by rw [husp, hsp, BitVec.sub_add_cancel])

end Sys2Proof.Machine

/-! PROOFS. What a step does not look at (spec/10_state.md R12, 20_memory.md R34): a register that is not named, a
byte at an address that is not read. -/

namespace Sys2Proof.Machine

/-! ### Registers -/

theorem setReg_comm {s : State} {r q : RegIdx} (h : r ≠ q) (v w : Byte) :
    (s.setReg r v).setReg q w = (s.setReg q w).setReg r v := by
  have hne : r.val ≠ q.val := fun e => h (Fin.ext e)
  simp only [State.setReg, State.mk.injEq, and_true]
  exact Vector.set_comm _ _ hne

theorem ne_of_regByte_not_mem {r a : RegIdx} {l : List Byte} (h : regByte r ∉ l) (ha : regByte a ∈ l) : r ≠ a :=
  fun e => h (e ▸ ha)

/-- The common shape of the two-operand operations, under another value of a register that is no operand. -/
theorem effect_binary_setReg {s : State} {i : Instr} {r a b : RegIdx} {v : Byte} {f : Byte → Byte → Byte} {pc : PcWord}
    (hr : regByte r ∉ [regByte a, regByte b])
    (h : Effect (s.setReg r v) i
      (((s.setReg r v).setReg a (f ((s.setReg r v).reg a) ((s.setReg r v).reg b))).setPc pc)) :
    Effect (s.setReg r v) i (((s.setReg a (f (s.reg a) (s.reg b))).setPc pc).setReg r v) := by
  have ha : r ≠ a := ne_of_regByte_not_mem hr (by simp)
  have hb : r ≠ b := ne_of_regByte_not_mem hr (by simp)
  rwa [State.reg_setReg_other s v ha.symm, State.reg_setReg_other s v hb.symm, setReg_comm ha] at h

/-- A register that an instruction does not name, and that is not R7 of a stack instruction, can hold anything: the
instruction does the same and leaves it (R12). -/
theorem effect_setReg {s t : State} {i : Instr} {r : RegIdx} (h : Effect s i t) (hr : regByte r ∉ i.registerOperands)
    (hstack : usesStack i = true → r ≠ 7) (v : Byte) : Effect (s.setReg r v) i (t.setReg r v) := by
  have hsp (hs : usesStack i = true) : (s.setReg r v).sp = s.sp := State.reg_setReg_other s v (hstack hs).symm
  have hne {a : RegIdx} : regByte a ∈ i.registerOperands → r ≠ a := ne_of_regByte_not_mem hr
  have hreg {a : RegIdx} (ha : regByte a ∈ i.registerOperands) : (s.setReg r v).reg a = s.reg a :=
    State.reg_setReg_other s v (hne ha).symm
  cases h with
  | hlt => exact .hlt
  | ldi a imm =>
    have e := Effect.ldi (s := s.setReg r v) a imm
    rwa [setReg_comm (hne (.head _))] at e
  | prn a =>
    have e := Effect.prn (s := s.setReg r v) a
    rwa [hreg (.head _)] at e
  | add a b => exact effect_binary_setReg hr (.add a b)
  | mul a b => exact effect_binary_setReg hr (.mul a b)
  | mod a b h => exact effect_binary_setReg hr (.mod a b (by rwa [hreg (.tail _ (.head _))]))
  | or a b => exact effect_binary_setReg hr (.or a b)
  | xor a b => exact effect_binary_setReg hr (.xor a b)
  | not a =>
    have e := Effect.not (s := s.setReg r v) a
    rwa [hreg (.head _), setReg_comm (hne (.head _))] at e
  | shl a b => exact effect_binary_setReg hr (.shl a b)
  | shr a b => exact effect_binary_setReg hr (.shr a b)
  | cmp a b =>
    have e := Effect.cmp (s := s.setReg r v) a b
    rwa [hreg (.head _), hreg (.tail _ (.head _))] at e
  | push a h =>
    have e := Effect.push (s := s.setReg r v) a (by rwa [hsp rfl])
    rwa [hsp rfl, setReg_comm (hstack rfl), State.reg_setReg_other _ v (hne (.head _)).symm] at e
  | pop a h =>
    have e := Effect.pop (s := s.setReg r v) a (by rwa [hsp rfl])
    rwa [hsp rfl, setReg_comm (hne (.head _)), setReg_comm (hstack rfl)] at e
  | call a h hp =>
    have e := Effect.call (s := s.setReg r v) a (by rwa [hsp rfl]) hp
    rwa [hsp rfl, setReg_comm (hstack rfl), State.reg_setReg_other _ v (hne (.head _)).symm] at e
  | ret h =>
    have e := Effect.ret (s := s.setReg r v) (by rwa [hsp rfl])
    rwa [hsp rfl, setReg_comm (hstack rfl)] at e
  | jmp a =>
    have e := Effect.jmp (s := s.setReg r v) a
    rwa [hreg (.head _)] at e
  | jeqTaken a h =>
    have e := Effect.jeqTaken (s := s.setReg r v) a h
    rwa [hreg (.head _)] at e
  | jeqNot a h => exact .jeqNot a h
  | jneTaken a h =>
    have e := Effect.jneTaken (s := s.setReg r v) a h
    rwa [hreg (.head _)] at e
  | jneNot a h => exact .jneNot a h
  | badA i b rest hi h => exact .badA i b rest hi h
  | badB i a b hi ha h => exact .badB i a b hi ha h
  | modZero a b h => exact .modZero a b (by rwa [hreg (.tail _ (.head _))])
  | pushLow a h => exact .pushLow a (by rwa [hsp rfl])
  | callLow a h => exact .callLow a (by rwa [hsp rfl])
  | callReturn a h hp => exact .callReturn a (by rwa [hsp rfl]) hp
  | popHigh a h => exact .popHigh a (by rwa [hsp rfl])
  | retHigh h => exact .retHigh (by rwa [hsp rfl])

theorem fetchInstr_setReg (s : State) (r : RegIdx) (v : Byte) : fetchInstr (s.setReg r v) = fetchInstr s := rfl

/-- A stack instruction is at PC where one is fetched (R12). -/
theorem atStackInstr_of_fetch {s : State} {i : Instr} (h : fetchInstr s = .ok i) (hs : usesStack i = true) :
    s.atStackInstr := by
  obtain ⟨hop, -, -⟩ := fetchInstr_ok h
  rw [State.atStackInstr, hop]
  cases i with
  | push | pop | call | ret => simp [Instr.opcodeByte]
  | _ => cases hs

/-- Settles O52: the fetch looks at no register, and the instruction fetched only at its operands, and R7 if it is a
stack instruction (`effect_setReg`); it writes no other (`effect_reg`). -/
theorem registersAreUsedOnlyWhereNamed : Obligations.RegistersAreUsedOnlyWhereNamed := by
  intro s t r h hnamed hstack
  obtain ⟨hr, ⟨f, hf, rfl⟩ | ⟨i, hf, e⟩⟩ := step_cases h
  · exact ⟨rfl, fun v => step_of_fetch_error (s := s.setReg r v) hr ((fetchInstr_setReg s r v).trans hf)⟩
  · have hmem : regByte r ∉ i.registerOperands := fun hmem => hnamed (namesReg_of_mem_registerOperands hf hmem)
    have h7 : usesStack i = true → r ≠ 7 := fun hs h7 => hstack h7 (atStackInstr_of_fetch hf hs)
    have hrun := exec_effect e
    refine ⟨effect_reg hrun (fun _ hhead => hmem (List.mem_of_head? hhead)) h7, fun v => ?_⟩
    have hstep := step_of_fetch_ok (s := s.setReg r v) hr ((fetchInstr_setReg s r v).trans hf)
    exact hstep.trans (effect_setReg hrun hmem h7 v).exec

/-! ### Bytes of memory -/

theorem memRead_setMem {s : State} {m : Memory} {a : Int} (h : m.read a.toNat = s.mem.read a.toNat) (c : RangeCause) :
    memRead a c (s.setMem m) = memRead a c s := by
  rw [memRead, memRead, State.setMem_mem, State.setMem_pc, h]

theorem fetchOperand_setMem {s : State} {m : Memory} {present : Bool} {k : Nat} (c : RangeCause)
    (h : present = true → (s.setMem m).codeByte k = s.codeByte k) :
    fetchOperand present ((s.pc.toNat : Int) + k) c (s.setMem m) = fetchOperand present (s.pc.toNat + k) c s := by
  cases present with
  | false => rfl
  | true => exact memRead_setMem (a := (s.pc.toNat : Int) + k) (h rfl) c

/-- The fetch looks at the opcode byte and, of an opcode of the map, at the operand bytes it counts (R34, R57). -/
theorem fetchInstr_setMem {s : State} {m : Memory} (h0 : (s.setMem m).codeByte 0 = s.codeByte 0)
    (h1 : s.codeByte 0 ∈ opcodeBytes → 1 ≤ operandCount (s.codeByte 0) → (s.setMem m).codeByte 1 = s.codeByte 1)
    (h2 : s.codeByte 0 ∈ opcodeBytes → operandCount (s.codeByte 0) = 2 → (s.setMem m).codeByte 2 = s.codeByte 2) :
    fetchInstr (s.setMem m) = fetchInstr s := by
  have hopcode : memRead s.pc.toNat .opcodeFetch (s.setMem m) = memRead s.pc.toNat .opcodeFetch s :=
    memRead_setMem (a := s.pc.toNat) h0 _
  simp only [fetchInstr, State.setMem_pc, hopcode]
  by_cases hpc : s.pc.toNat ≤ 255
  · have hread : memRead s.pc.toNat .opcodeFetch s = .ok (s.codeByte 0) := memRead_inRange hpc _ s
    simp only [hread, bind, Except.bind]
    cases hl : lookupOpcode (s.codeByte 0) with
    | none => rfl
    | some row =>
      have hmem := mem_opcodeBytes_of_lookup hl
      have e1 := fetchOperand_setMem (k := 1) .operand1Fetch fun hn => h1 hmem (of_decide_eq_true hn)
      have e2 := fetchOperand_setMem (k := 2) .operand2Fetch fun hn => h2 hmem (of_decide_eq_true hn)
      simp only [Nat.cast_one, Nat.cast_ofNat] at e1 e2
      simp only [e1, e2]
  · have herror := memRead_outOfRange (a := s.pc.toNat) (by omega) .opcodeFetch s
    simp only [herror, bind, Except.bind]

/-- Memory that reads alike where POP and RET load can hold anything else: the instruction does the same, and stores
the same byte at the same address, if it stores one. -/
theorem effect_setMem {s t : State} {i : Instr} (h : Effect s i t) {m : Memory}
    (hload : i.opcodeByte = 0x46 ∨ i.opcodeByte = 0x11 → m.read s.sp.toNat = s.mem.read s.sp.toNat) :
    (Effect (s.setMem m) i (t.setMem m) ∧ t.mem = s.mem ∧
      (i.opcodeByte = 0x45 ∨ i.opcodeByte = 0x50 → t.rs = .faulted)) ∨
    (∃ b, Effect (s.setMem m) i (t.setMem (m.write (s.sp - 1).toNat b)) ∧
      (i.opcodeByte = 0x45 ∨ i.opcodeByte = 0x50) ∧ t.rs = s.rs ∧ s.sp ≠ 0 ∧
      t.mem = s.mem.write (s.sp - 1).toNat b) := by
  have hpopped (hop : i.opcodeByte = 0x46 ∨ i.opcodeByte = 0x11) :
      (s.setMem m).mem.read (s.setMem m).sp.toNat = s.mem.read s.sp.toNat := hload hop
  cases h with
  | hlt | ldi | prn | add | mul | or | xor | not | shl | shr | cmp | jmp =>
    exact .inl ⟨by constructor, rfl, by simp [Instr.opcodeByte]⟩
  | mod a b h => exact .inl ⟨.mod a b h, rfl, by simp [Instr.opcodeByte]⟩
  | push a h => exact .inr ⟨_, .push a h, .inl rfl, rfl, h, rfl⟩
  | pop a h =>
    have e := Effect.pop (s := s.setMem m) a (by rwa [hpopped (.inl rfl)])
    rw [hpopped (.inl rfl)] at e
    exact .inl ⟨e, rfl, by simp [Instr.opcodeByte]⟩
  | call a h hp => exact .inr ⟨_, .call a h hp, .inr rfl, rfl, h, rfl⟩
  | ret h =>
    have e := Effect.ret (s := s.setMem m) h
    rw [hpopped (.inr rfl)] at e
    exact .inl ⟨e, rfl, by simp [Instr.opcodeByte]⟩
  | jeqTaken a h => exact .inl ⟨.jeqTaken a h, rfl, by simp [Instr.opcodeByte]⟩
  | jeqNot a h => exact .inl ⟨.jeqNot a h, rfl, by simp [Instr.opcodeByte]⟩
  | jneTaken a h => exact .inl ⟨.jneTaken a h, rfl, by simp [Instr.opcodeByte]⟩
  | jneNot a h => exact .inl ⟨.jneNot a h, rfl, by simp [Instr.opcodeByte]⟩
  | badA i b rest hi h => exact .inl ⟨.badA i b rest hi h, rfl, fun _ => rfl⟩
  | badB i a b hi ha h => exact .inl ⟨.badB i a b hi ha h, rfl, fun _ => rfl⟩
  | modZero a b h => exact .inl ⟨.modZero a b h, rfl, fun _ => rfl⟩
  | pushLow a h => exact .inl ⟨.pushLow a h, rfl, fun _ => rfl⟩
  | callLow a h => exact .inl ⟨.callLow a h, rfl, fun _ => rfl⟩
  | callReturn a h hp => exact .inl ⟨.callReturn a h hp, rfl, fun _ => rfl⟩
  | popHigh a h => exact .inl ⟨.popHigh a (by rwa [hpopped (.inl rfl)]), rfl, fun _ => rfl⟩
  | retHigh h => exact .inl ⟨.retHigh h, rfl, fun _ => rfl⟩

/-- An address that a step does not read is none of the fetch's and not the one POP and RET load from (R34). -/
theorem not_mem_readAddresses {s : State} {a : Nat} (h : a ∉ readAddresses s) :
    s.pc.toNat ≠ a ∧ (s.codeByte 0 ∈ opcodeBytes → 1 ≤ operandCount (s.codeByte 0) → s.pc.toNat + 1 ≠ a) ∧
    (s.codeByte 0 ∈ opcodeBytes → operandCount (s.codeByte 0) = 2 → s.pc.toNat + 2 ≠ a) ∧
    (s.codeByte 0 = 0x46 ∨ s.codeByte 0 = 0x11 → s.sp.toNat ≠ a) := by
  refine ⟨?_, fun hop hn => ?_, fun hop hn => ?_, fun hop => ?_⟩ <;> rintro rfl <;> refine h ?_
  · simp [readAddresses]
  · rw [operandCount] at hn
    simp [readAddresses, hop, hn]
  · rw [operandCount] at hn
    simp [readAddresses, hop, hn]
  · rw [readAddresses, if_pos hop]
    exact List.mem_append_right _ (List.mem_singleton.mpr (congrArg BitVec.toNat s.regNamed_seven).symm)

/-- The same store on top of two memories: they read alike where they did, and where the byte was stored. -/
theorem Memory.read_write_congr {m n : Memory} (hm : m.wf = true) (hn : n.wf = true) {a c : Nat} (b : Byte)
    (h : c ≠ a → m.read c = n.read c) : (m.write a b).read c = (n.write a b).read c := by
  by_cases hc : c = a
  · rw [hc, Memory.read_write_same hm, Memory.read_write_same hn]
  · rw [Memory.read_write_other m b hc, Memory.read_write_other n b hc, h hc]

/-- A step that stored a byte did so at the decremented SP. -/
theorem storesAt_iff_of_stored {s t : State} (hop : s.codeByte 0 = 0x45 ∨ s.codeByte 0 = 0x50) (ht : t.rs = .running)
    (hsp : s.sp ≠ 0) (a : Nat) : storesAt s t a ↔ a = (s.sp - 1).toNat := by
  have hne : t.rs ≠ .faulted := by rw [ht]; decide
  have hpos : s.sp.toNat ≠ 0 := fun h0 => hsp (BitVec.eq_of_toNat_eq h0)
  rw [toNat_sub_one hsp, storesAt]
  exact ⟨fun ⟨_, _, ha⟩ => by omega, fun ha => ⟨hop, hne, by omega⟩⟩

/-- A byte that a step changed is one it stored (R34). -/
theorem step_storesAt {s t : State} (h : step s = .next t) {a : Nat} (hne : t.mem.read a ≠ s.mem.read a) :
    storesAt s t a := by
  obtain ⟨hr, ⟨f, -, rfl⟩ | ⟨i, hf, e⟩⟩ := step_cases h
  · exact absurd rfl hne
  · obtain ⟨hop, -, -⟩ := fetchInstr_ok hf
    obtain ⟨hmem, -⟩ | ⟨b, hstore, hrs, hsp, hmem⟩ := effect_mem_cases (exec_effect e)
    · exact absurd (by rw [hmem]) hne
    · rw [storesAt_iff_of_stored (by rwa [hop]) (hrs.trans hr) hsp]
      by_contra ha
      exact hne (by rw [hmem, Memory.read_write_other s.mem b ha])

/-- Settles O50: what an instruction stores is `effect_mem_cases`; the fetch (`fetchInstr_setMem`) and the instruction
(`effect_setMem`) do the same under another byte at an address that is not read. -/
theorem memoryAccessesAreTheTabledOnes : Obligations.MemoryAccessesAreTheTabledOnes := by
  refine fun s t h => ⟨fun a hne => step_storesAt h hne, fun hwf a v ha hnot => ?_⟩
  have hread {b : Nat} (hb : b ≠ a) : (s.mem.write a v).read b = s.mem.read b := Memory.read_write_other s.mem v hb
  have hput : (s.mem.write a v).read a = v := Memory.read_write_same hwf a v
  have hwf' : (s.mem.write a v).wf = true := Memory.write_wf hwf (Nat.lt_succ_of_le ha) v
  obtain ⟨h0, h1, h2, h7⟩ := not_mem_readAddresses hnot
  have hfetch : fetchInstr (s.setMem (s.mem.write a v)) = fetchInstr s :=
    fetchInstr_setMem (hread h0) (fun hop hn => hread (h1 hop hn)) fun hop hn => hread (h2 hop hn)
  obtain ⟨hr, ⟨f, hf, rfl⟩ | ⟨i, hf, e⟩⟩ := step_cases h
  · exact ⟨_, step_of_fetch_error (s := s.setMem (s.mem.write a v)) hr (hfetch.trans hf), rfl, fun b hb => hread hb,
      fun hstore => absurd rfl hstore.2.1, fun _ => hput⟩
  · obtain ⟨hop, -, -⟩ := fetchInstr_ok hf
    rw [hop] at h7
    have hstep := step_of_fetch_ok (s := s.setMem (s.mem.write a v)) hr (hfetch.trans hf)
    obtain ⟨hrun, hmem, hnone⟩ | ⟨b, hrun, hstore, hrs, hsp, hmem⟩ :=
      effect_setMem (exec_effect e) fun hop => hread (h7 hop)
    · refine ⟨_, hstep.trans hrun.exec, rfl, fun b hb => ?_, fun hstore => ?_, fun _ => hput⟩
      · rw [hmem]; exact hread hb
      · obtain ⟨hstored, hne, -⟩ := hstore
        rw [hop] at hstored
        exact absurd (hnone hstored) hne
    · rw [storesAt_iff_of_stored (by rwa [hop]) (hrs.trans hr) hsp, hmem]
      exact ⟨_, hstep.trans hrun.exec, by rw [← hmem]; rfl,
        fun c hc => Memory.read_write_congr hwf' hwf b fun _ => hread hc,
        fun hslot => Memory.read_write_congr hwf' hwf b fun hne => absurd hslot hne,
        fun hne => (Memory.read_write_other _ b hne).trans hput⟩

end Sys2Proof.Machine

/-! PROOFS. A byte stored where the PC goes next is the next opcode fetched (spec/20_memory.md section 4, R41). -/

namespace Sys2Proof.Machine

/-- Two bytes at PC that are an instruction's are fetched as it (R50). -/
theorem fetch_of_encode_pair {s : State} {i : Instr} (hpc : s.pc.toNat ≤ 254)
    (h : encode i = [s.codeByte 0, s.codeByte 1]) : fetchInstr s = .ok i := by
  obtain ⟨n, hn⟩ : ∃ n, 256 - s.pc.toNat = n + 2 := ⟨254 - s.pc.toNat, by omega⟩
  have hbytes : s.codeBytes = encode i ++ [s.codeByte 2].take n := by rw [codeBytes_eq_take, hn, h]; rfl
  exact fetch_of_decode (by rw [hbytes]; exact decode_encode_append i _)

/-- A running machine with the byte `op` at its PC takes `op` as its next opcode (R71 to R75). -/
theorem stepFetches_codeByte {t : State} (hr : t.rs = .running) (hpc : t.pc.toNat ≤ 255) :
    StepFetches t (t.codeByte 0) := by
  have hbytes := codeBytes_of_pc_le hpc
  obtain ⟨-, hunrecognized, hoperand1, hoperand2⟩ := stepFaultsOnUndecodableBytes t hr (by omega)
  refine ⟨fun i rest hd => ?_, fun b hd => ?_, fun hd => ?_, fun hd => ?_⟩ <;> rw [← hbytes] at hd
  · have hf := fetch_of_decode hd
    obtain ⟨hop, -, -⟩ := fetchInstr_ok hf
    exact ⟨hop.symm, step_of_fetch_ok hr hf⟩
  · have hb : b = t.codeByte 0 := by
      obtain ⟨-, -, e⟩ | ⟨-, e⟩ | ⟨-, -, e⟩ | ⟨-, -, e⟩ | ⟨_, _, -, e⟩ := fetch_decode_cases (s := t) (by omega)
      all_goals rw [hd] at e; cases e
      rfl
    rw [← hb]
    exact hunrecognized b hd
  · exact (hoperand1 hd).2
  · exact (hoperand2 hd).2

/-- A byte just stored at the PC is the next opcode. -/
theorem stepFetches_of_stored {t : State} {m : Memory} (hwf : m.wf = true) {a : Nat} {b : Byte}
    (hmem : t.mem = m.write a b) (hr : t.rs = .running) (ha : t.pc.toNat = a) (hpc : a ≤ 255) : StepFetches t b := by
  have hop : t.codeByte 0 = b := by rw [State.codeByte, hmem, Nat.add_zero, ha, Memory.read_write_same hwf]
  rw [← hop]
  exact stepFetches_codeByte hr (ha.trans_le hpc)

/-- Settles O51: PUSH stores at SP - 1 and CALL jumps there, so the byte stored stands at the next PC. -/
theorem storedByteIsFetchedNext : Obligations.StoredByteIsFetchedNext := by
  intro a s hr hwf h1
  refine ⟨fun hop hslot => ?_, fun hop hpc hsp htarget => ?_⟩
  · have hlt := s.sp.isLt
    have hsp : s.sp ≠ 0 := fun h0 => by rw [h0] at hslot; simp at hslot
    have hf : fetchInstr s = .ok (.push (regByte a)) := fetch_of_encode_pair (by omega) (by rw [hop, h1]; rfl)
    refine ⟨_, (step_of_fetch_ok hr hf).trans (Effect.push a hsp).exec, hr, rfl, ?_⟩
    rw [← reg_setReg_seven]
    refine stepFetches_of_stored hwf rfl hr ?_ (Nat.le_of_lt_succ (s.sp - 1).isLt)
    rw [State.setPc_pc, toNat_sub_one hsp, show s.pc + 2 = s.pc + BitVec.ofNat 9 2 from rfl, toNat_pc_add (by omega)]
    omega
  · have hf : fetchInstr s = .ok (.call (regByte a)) := fetch_of_encode_pair (by omega) (by rw [hop, h1]; rfl)
    have hjump : (s.setReg 7 (s.sp - 1)).reg a = s.sp - 1 := by
      rw [reg_setReg_seven]
      obtain rfl | htarget := htarget
      · exact if_pos rfl
      · rw [htarget, ite_self]
    have hpc' : (((s.setReg 7 (s.sp - 1)).reg a).setWidth 9).toNat = (s.sp - 1).toNat := by
      rw [hjump, toNat_setWidth_nine]
    have hpos : s.sp.toNat ≠ 0 := fun h0 => hsp (BitVec.eq_of_toNat_eq h0)
    refine ⟨_, (step_of_fetch_ok hr hf).trans (Effect.call a hsp hpc).exec, hr, ?_, ?_⟩
    · rw [State.jumpTo_pc, hpc', toNat_sub_one hsp]
      omega
    · exact stepFetches_of_stored hwf rfl hr hpc' (Nat.le_of_lt_succ (s.sp - 1).isLt)

end Sys2Proof.Machine
